-- ==== Sys2Proof/Word.lean ====
section
/-! DEFINITION. The bit, byte and word types of the spec (00_scope.md R9, R10). -/

namespace Sys2Proof

/-- A bit, 0 (`false`) or 1 (`true`) (R9). -/
abbrev Bit := Bool

/-- A byte; `byte[k]` of R9 is `getLsbD k`. -/
abbrev Byte := BitVec 8

/-- A bit sequence; element 0 is the first (R9). A codeword is a bit sequence of length `N_BITS`. -/
abbrev Bits := List Bit

/-- A byte sequence (R9). A block is a byte sequence of length `DATA_BYTES`. -/
abbrev Bytes := List Byte

/-- The pattern of an `i16`; its signed value (`sext_16` of R10) is `BitVec.toInt`. -/
abbrev Half := BitVec 16

/-- A 32-bit pattern; its signed value (`sext_32` of R10) is `BitVec.toInt`. -/
abbrev Word := BitVec 32

end Sys2Proof
end

