-- ==== Sys2Proof/Syntax.lean ====
section
/-! DEFINITION. The commands of the unit (30_encoding.md R71, opcode_table.json: one constructor per row) and what
the host presents on the command port (10_state.md R29). The 8-bit command word holds the opcode and nothing else
(R68), so an instruction has no fields: its operands are the operand fields of the port. -/

namespace Sys2Proof

/-- The 14 commands, in the table's order (R71). -/
inductive Instr where
  | byte2bits     -- 0x01 BYTE2BITS, R81
  | bits2byte     -- 0x02 BITS2BYTE, R83
  | int16tobytes  -- 0x03 INT16TOBYTES, R85
  | bytestoint16  -- 0x04 BYTESTOINT16, R87
  | int32tobytes  -- 0x05 INT32TOBYTES, R89
  | bytestoint32  -- 0x06 BYTESTOINT32, R91
  | encode        -- 0x10 ENCODE, R109
  | parse         -- 0x11 PARSE, R141
  | syndrome      -- 0x12 SYNDROME, R123
  | parity        -- 0x13 PARITY, R124
  | selfcorrect   -- 0x14 SELFCORRECT, R126
  | topayload     -- 0x15 TOPAYLOAD, R132
  | split         -- 0x20 SPLIT, R154
  | join          -- 0x21 JOIN, R159
  deriving DecidableEq, Repr

/-- The fields of the command port (R29), each whole, beside the opcode (R68). A field a command does not use is
ignored (R29, U19). -/
structure Command where
  op     : Byte
  index  : Half := 0
  flag   : Byte := 0
  bytes  : Bytes := []
  bits   : Bits := []
  value  : Word := 0
  blocks : List Bytes := []
  deriving DecidableEq, Repr

/-- The command port while the host presents nothing (log entry 5: DESIGN CHOICE, the spec gives the ports no state;
every step writes the port before anything reads it). -/
def Command.idle : Command := ⟨0, 0, 0, [], [], 0, []⟩

end Sys2Proof
end

