-- ==== Sys2Proof/Config.lean ====
section
/-! DEFINITION. The sizing parameter `DATA_BYTES`, the sizes derived from it (00_scope.md R5, R6) and the sizes
the spec admits (R7). The hardware is the instance 4096; the model is written for every admitted size.
The unit has no implementation-chosen value beside these (70 R214), so there is no free value here. -/

namespace Sys2Proof

/-- `HEADER_BYTES` (R5): 2 bytes index, 2 bytes size, 1 byte fragment flag. -/
def headerBytes : Nat := 5

/-- `N_BITS` (R6): the length of a codeword in bits. -/
def Sizing.nBits (dataBytes : Nat) : Nat := 8 * dataBytes

/-- `K_PAR` (R6): the number of group-parity bits, `floor(log2(N_BITS - 1)) + 1`. -/
def Sizing.kPar (dataBytes : Nat) : Nat := Nat.log2 (Sizing.nBits dataBytes - 1) + 1

/-- `CONTENT_BITS` (R6): the number of positions that are neither 0 nor a power of two. -/
def Sizing.contentBits (dataBytes : Nat) : Nat := Sizing.nBits dataBytes - 1 - Sizing.kPar dataBytes

/-- `CONTENT_BYTES` (R6). -/
def Sizing.contentBytes (dataBytes : Nat) : Nat := Sizing.contentBits dataBytes / 8

/-- `DATA_BYTES_VALID` (R6, C1): usable payload bytes per packet. -/
def Sizing.dataBytesValid (dataBytes : Nat) : Nat := Sizing.contentBytes dataBytes - headerBytes

/-- `POS_BITS` (R6): `ceil(log2(N_BITS))`, the width of a position or syndrome. -/
def Sizing.posBits (dataBytes : Nat) : Nat :=
  let n := Sizing.nBits dataBytes
  if 2 ^ Nat.log2 n = n then Nat.log2 n else Nat.log2 n + 1

/-- The sizes R7 admits: room for a payload byte, and a size that fits the signed 16-bit field. -/
abbrev Sizing.Admitted (dataBytes : Nat) : Prop :=
  1 ≤ Sizing.dataBytesValid dataBytes ∧ Sizing.dataBytesValid dataBytes ≤ 32767

/-- The configuration of a unit: an admitted `DATA_BYTES` (R5, R7). A size outside the range of R7 cannot be
built, which is the treatment `refuse` of 93 U11. -/
structure Config where
  dataBytes : Nat
  admitted  : Sizing.Admitted dataBytes
  deriving DecidableEq, Repr

namespace Config

/-- This hardware: the reference sizing `DATA_BYTES = 4096` (R5, D7). -/
def hardware : Config := ⟨4096, by decide⟩

/-- The test instance T16 of R7 and 95_test_vectors.md; not this hardware. -/
def t16 : Config := ⟨16, by decide⟩

/-- The instance `DATA_BYTES = 7` of 95_test_vectors.md X3, whose `N_BITS` is no power of two; not this hardware. -/
def t7 : Config := ⟨7, by decide⟩

/-- `N_BITS`. -/
abbrev nBits (c : Config) : Nat := Sizing.nBits c.dataBytes

/-- `K_PAR`. -/
abbrev kPar (c : Config) : Nat := Sizing.kPar c.dataBytes

/-- `CONTENT_BITS`. -/
abbrev contentBits (c : Config) : Nat := Sizing.contentBits c.dataBytes

/-- `CONTENT_BYTES`. -/
abbrev contentBytes (c : Config) : Nat := Sizing.contentBytes c.dataBytes

/-- `DATA_BYTES_VALID`. -/
abbrev dataBytesValid (c : Config) : Nat := Sizing.dataBytesValid c.dataBytes

/-- `POS_BITS`. -/
abbrev posBits (c : Config) : Nat := Sizing.posBits c.dataBytes

end Config

end Sys2Proof
end

