-- ==== Sys2Proof/WellFormed.lean ====
section
/-! DEFINITION. What the spec expects of a command before it runs: an opcode of the table (30_encoding.md R73) and
operands that fit (30 R69, 20_memory.md R49). Neither check is made by decoding: an ill-formed command is still
executed, and raises the error its rule names (R73, R74). -/

namespace Sys2Proof

/-- An instruction has no fields (R68), so every term of `Instr` is well formed. -/
def Instr.wf (_ : Instr) : Bool := true

/-- The operands of R69 have the lengths and values that R49 and R108 ask for. The commands that read only `P`,
the two that are total on their operand, SPLIT (any length) and JOIN (any list) have nothing to fit. -/
def Command.fits (cfg : Config) (i : Instr) (c : Command) : Bool :=
  match i with
  | .byte2bits => c.bytes.length == 1
  | .bits2byte => c.bits.length == 8
  | .int16tobytes => true
  | .bytestoint16 => c.bytes.length == 2
  | .int32tobytes => true
  | .bytestoint32 => c.bytes.length == 4
  | .encode => c.bytes.length ≤ cfg.dataBytesValid && (c.flag == 0 || c.flag == 1)
  | .parse => c.bytes.length == cfg.dataBytes
  | .syndrome => true
  | .parity => true
  | .selfcorrect => true
  | .topayload => true
  | .split => true
  | .join => true

end Sys2Proof
end

