-- ==== Sys2Proof/Decode.lean ====
section
/-! DEFINITION. The opcode table (30_encoding.md R71, R72), decoding by it (R73), and the encoder. The command word is
one byte; every bit of it is opcode (R68), and there is no other length (R79). -/

namespace Sys2Proof

/-- One row of the opcode table (R72): a word `w` is the row's when `w &&& mask = pattern`. -/
structure OpcodeRow where
  pattern : Byte
  mask    : Byte
  instr   : Instr
  deriving DecidableEq, Repr

/-- The 14 rows of R71, each with mask `0xFF` (R72). -/
def opcodeTable : List OpcodeRow :=
  [ ⟨0x01#8, 0xFF#8, .byte2bits⟩,
    ⟨0x02#8, 0xFF#8, .bits2byte⟩,
    ⟨0x03#8, 0xFF#8, .int16tobytes⟩,
    ⟨0x04#8, 0xFF#8, .bytestoint16⟩,
    ⟨0x05#8, 0xFF#8, .int32tobytes⟩,
    ⟨0x06#8, 0xFF#8, .bytestoint32⟩,
    ⟨0x10#8, 0xFF#8, .encode⟩,
    ⟨0x11#8, 0xFF#8, .parse⟩,
    ⟨0x12#8, 0xFF#8, .syndrome⟩,
    ⟨0x13#8, 0xFF#8, .parity⟩,
    ⟨0x14#8, 0xFF#8, .selfcorrect⟩,
    ⟨0x15#8, 0xFF#8, .topayload⟩,
    ⟨0x20#8, 0xFF#8, .split⟩,
    ⟨0x21#8, 0xFF#8, .join⟩ ]

/-- A word is a row's word. -/
def OpcodeRow.accepts (r : OpcodeRow) (w : Byte) : Bool := w &&& r.mask == r.pattern

/-- Why bytes are no command. -/
inductive DecodeError where
  /-- There is no byte to read. -/
  | noWord
  /-- The opcode is in no row of the table (R74). -/
  | illegalOpcode (op : Byte)
  deriving DecidableEq, Repr

/-- The command an opcode names: compare it with each row (R72, R73). -/
def decodeOp (op : Byte) : Option Instr := (opcodeTable.find? (·.accepts op)).map (·.instr)

/-- Decoding of any bytes: the instruction and the bytes after its one word, or a rejection by name. -/
def decode : Bytes → Except DecodeError (Instr × Bytes)
  | [] => .error .noWord
  | op :: rest =>
    match decodeOp op with
    | some i => .ok (i, rest)
    | none => .error (.illegalOpcode op)

/-- The opcode of an instruction, from the table of R71. -/
def opcode : Instr → Byte
  | .byte2bits => 0x01#8
  | .bits2byte => 0x02#8
  | .int16tobytes => 0x03#8
  | .bytestoint16 => 0x04#8
  | .int32tobytes => 0x05#8
  | .bytestoint32 => 0x06#8
  | .encode => 0x10#8
  | .parse => 0x11#8
  | .syndrome => 0x12#8
  | .parity => 0x13#8
  | .selfcorrect => 0x14#8
  | .topayload => 0x15#8
  | .split => 0x20#8
  | .join => 0x21#8

/-- The command word of an instruction (R68): one byte. -/
def encode (i : Instr) : Bytes := [opcode i]

/-- The bytes of an instruction whose table bits are `w`: the first byte is bits 7..0. The longest command is one
byte, so at least one byte is laid out; bits at or above `nbits` are 0. -/
def tableBytes (nbits w : Nat) : Bytes :=
  (List.range (max 1 (nbits / 8))).map fun k => BitVec.ofNat 8 ((w % 2 ^ nbits) / 2 ^ (8 * k))

/-- The instruction the decoder reads from table bits `w`, if they are one whole command (R79). -/
def decodeTableWord (nbits w : Nat) : Option Instr :=
  match decode (tableBytes nbits w) with
  | .ok (i, []) => some i
  | .ok (_, _ :: _) => none
  | .error _ => none

end Sys2Proof
end

