-- ==== Sys2Proof/Machine/State.lean ====
section
/-! DEFINITION. The state of one codec unit (10_state.md): the packet register P, the register STATUS, the two ports,
the configuration it was built with and the host's pending actions. Plain data throughout. -/

namespace Sys2Proof.Machine

/-- The error kinds (60_exceptions.md R170). They are NOT faults of the model: a command that raises one ends in a
next state (`State.raise`). -/
inductive Err where
  | lengthError | payloadTooLarge | invalidFragFlag | invalidBlockSize | sizeOutOfRange | uncorrectableError
  | missingFragment | boundsError | illegalCommand | noPacket | indexOverflow
  deriving DecidableEq, Repr

/-- The outcome of a self-correction (00_scope.md R14, 42 R125). -/
inductive CorrectionOutcome where
  | noErrorFound
  | corrected (position : Nat)
  | uncorrectableDoubleError
  deriving DecidableEq, Repr

/-- The unit's only memory, the block (20_memory.md R40): the byte at address `a` is element `a`. The block has a
fixed length and every address below it holds a byte, so two equal memories are equal lists (log entry 9). -/
abbrev Memory := Bytes

/-- The canonical form of a block: exactly `DATA_BYTES` bytes (10 R21). -/
def Memory.wf (cfg : Config) (m : Memory) : Bool := m.length == cfg.dataBytes

/-- A Hamming Packet, the contents of register P while `P.valid = 1` (10 R20 to R24). The header fields are a cache;
the block is authoritative (R33). -/
structure Packet where
  block    : Memory
  index    : Half
  size     : Half
  fragFlag : Byte
  deriving DecidableEq, Repr

/-- The register STATUS (10 R26 to R28). `pos` is a position; that it fits `POS_BITS` bits is part of the invariant
(`State.wf`; log entry 8). -/
structure Status where
  err     : BitVec 8
  outcome : BitVec 2
  pos     : Nat
  deriving DecidableEq, Repr

/-- The response port (10 R29, 30 R70). `none` in a result field: the field holds no value (R29, U18; log entry 6).
`outcome` is the pair of kind and position. -/
structure Response where
  err     : BitVec 8 := 0
  bytes   : Option Bytes := none
  bits    : Option Bits := none
  value   : Option Int := none
  blocks  : Option (List Bytes) := none
  outcome : Option (BitVec 2 × Nat) := none
  index   : Option Half := none
  size    : Option Half := none
  flag    : Option Byte := none
  deriving DecidableEq, Repr

/-- What the host does to a unit, between commands (70_reset_and_hazards.md R200, R202, R213, R216). -/
inductive HostAction where
  | command (c : Command)
  | reset
  deriving DecidableEq, Repr

/-- The state of one unit. `p = none` is `P.valid = 0`: then the other fields of P hold no value (10 R25, R35; log
entry 1). `cfg` is configuration, constant (R32, 70 R201; log entry 2). `pending` is what the host will do, first
action next (log entry 3). `cmd` and `rsp` are the ports (R29; log entry 5). -/
structure State where
  cfg     : Config
  p       : Option Packet
  status  : Status
  cmd     : Command
  rsp     : Option Response
  pending : List HostAction
  deriving DecidableEq, Repr

/-- Why the model has no step. No command raises either. -/
inductive Fault where
  /-- Raised by `step` when the host has nothing pending: the unit waits for a command and has no step of its own
  accord (70 R201, R213 a). Safe: the model stops where the hardware waits (log entry 4). -/
  | noCommand
  /-- Raised by `System.stepUnit` when it is asked for a unit that does not exist (60 R188). Safe (log entry 12). -/
  | noUnit
  deriving DecidableEq, Repr

/-- Why an instruction has no meaning. -/
inductive Refusal where
  /-- Raised by an arm of `exec` whose instruction has no meaning yet; no arm does. Safe. -/
  | notModelled (mnemonic : String)
  deriving DecidableEq, Repr

/-- STATUS after reset (10 R35, 70 R200). -/
def Status.reset : Status := ⟨0, 0, 0⟩

/-- The unit right after reset: no packet, STATUS zero (10 R35, 70 R200), the hardware's sizing (00 R5), idle ports,
and nothing pending (70 R201: it waits for the first command). -/
def State.reset : State where
  cfg := Config.hardware
  p := none
  status := Status.reset
  cmd := Command.idle
  rsp := none
  pending := []

end Sys2Proof.Machine
end

