-- ==== Sys2Proof/Machine/Operands.lean ====
section
/-! DEFINITION. The operand forms: the conversions between a byte and its bits and between integers and big-endian
byte sequences (40_bit_byte_utilities.md, even rules), on which everything else is built, and the operand fields of
the command port as the commands read them (30_encoding.md R69). `byteToBits` and `bitsToByte`, `int16ToBytes` and
`bytesToInt16`, `int32ToBytes` and `bytesToInt32` are inverse pairs, and the integer conversions keep the order within one
sign and not across it (R92): both are stated of these functions. -/

namespace Sys2Proof.Machine

/-- `byteToBits` (R80): element `t` is bit `7 - t`, most significant first. -/
def byteToBits (b : Byte) : Bits := (List.range 8).map fun t => b.getLsbD (7 - t)

/-- The number whose binary digits are `s`, first element most significant: `sum of s[t] * 2^(len - 1 - t)`. -/
def bitsValue (s : Bits) : Nat := s.foldl (fun acc b => 2 * acc + b.toNat) 0

/-- `bitsToByte` (R82): defined for exactly 8 bits. -/
def bitsToByte (s : Bits) : Except Err Byte :=
  if s.length = 8 then .ok (BitVec.ofNat 8 (bitsValue s)) else .error .lengthError

/-- `int16ToBytes` (R84) on the pattern of an `i16`: `[v div 256, v mod 256]`. Negative values are two's complement
(R10, G1; log entry 7). -/
def int16ToBytes (x : Half) : Bytes := [BitVec.ofNat 8 (x.toNat / 2 ^ 8), BitVec.ofNat 8 (x.toNat % 2 ^ 8)]

/-- `bytesToInt16` (R86), as a pattern; its value is the pattern's `toInt` (`sext_16`). -/
def bytesToInt16 (s : Bytes) : Except Err Half :=
  match s with
  | [hi, lo] => .ok (BitVec.ofNat 16 (hi.toNat * 2 ^ 8 + lo.toNat))
  | _ => .error .lengthError

/-- `int32ToBytes` (R88) on the pattern of an `i32`. -/
def int32ToBytes (x : Word) : Bytes :=
  [ BitVec.ofNat 8 (x.toNat / 2 ^ 24),
    BitVec.ofNat 8 (x.toNat / 2 ^ 16 % 2 ^ 8),
    BitVec.ofNat 8 (x.toNat / 2 ^ 8 % 2 ^ 8),
    BitVec.ofNat 8 (x.toNat % 2 ^ 8) ]

/-- `bytesToInt32` (R90), as a pattern; its value is the pattern's `toInt` (`sext_32`). -/
def bytesToInt32 (s : Bytes) : Except Err Word :=
  match s with
  | [b3, b2, b1, b0] =>
    .ok (BitVec.ofNat 32 (b3.toNat * 2 ^ 24 + b2.toNat * 2 ^ 16 + b1.toNat * 2 ^ 8 + b0.toNat))
  | _ => .error .lengthError

/-- `cmd.bytes` where exactly one byte is expected (R81, D30). -/
def Operand.oneByte (c : Command) : Except Err Byte :=
  match c.bytes with
  | [b] => .ok b
  | _ => .error .lengthError

/-- `cmd.value[15:0]`; bits 31:16 are ignored (R85). -/
def Operand.half (c : Command) : Half := BitVec.ofNat 16 (c.value.toNat % 2 ^ 16)

end Sys2Proof.Machine
end

