-- ==== Sys2Proof/Machine/Flags.lean ====
section
/-! DEFINITION. What STATUS and the checker compute: the error codes (60_exceptions.md R170), the outcome codes
(10_state.md R28, 42 R126), and the two check sums of a codeword, syndrome and total parity (41 R103, R105). -/

namespace Sys2Proof.Machine

/-- The 8-bit code of an error (R170). Code 0 is success. -/
def Err.code : Err → BitVec 8
  | .lengthError => 1
  | .payloadTooLarge => 2
  | .invalidFragFlag => 3
  | .invalidBlockSize => 4
  | .sizeOutOfRange => 5
  | .uncorrectableError => 6
  | .missingFragment => 7
  | .boundsError => 8
  | .illegalCommand => 9
  | .noPacket => 10
  | .indexOverflow => 11

/-- `code(o)` of R126: what STATUS.OUTCOME and STATUS.POS, and `rsp.outcome`, hold for an outcome (R28, R70). -/
def CorrectionOutcome.code : CorrectionOutcome → BitVec 2 × Nat
  | .noErrorFound => (0, 0)
  | .corrected p => (1, p)
  | .uncorrectableDoubleError => (2, 0)

/-- The exclusive-or of the positions of the set bits of `cw`, whose first bit stands at position `p`. -/
def syndromeFrom (p : Nat) : Bits → Nat
  | [] => 0
  | b :: rest => (if b then p else 0) ^^^ syndromeFrom (p + 1) rest

/-- `syndrome(cw)` (R103): positions are counted from 0 across the whole codeword. -/
def syndrome (cw : Bits) : Nat := syndromeFrom 0 cw

/-- `totalParity(cw)` (R105): the number of set bits modulo 2, as a bit. -/
def totalParity : Bits → Bit
  | [] => false
  | b :: rest => b ^^ totalParity rest

/-- STATUS.ERR receives a code; OUTCOME and POS stay (R27). -/
def Status.setErr (st : Status) (e : BitVec 8) : Status := { st with err := e }

/-- OUTCOME and POS receive an outcome, together; ERR stays (R28). -/
def Status.setOutcome (st : Status) (o : CorrectionOutcome) : Status :=
  { st with outcome := o.code.1, pos := o.code.2 }

end Sys2Proof.Machine
end

