-- ==== Sys2Proof/Machine/Ops.lean ====
section
/-! DEFINITION. The shared operations: access to the block (20_memory.md), its packing and layout, access to P and
STATUS, ending a command with success, and taking an error (60_exceptions.md R184), which is the unit's exception. -/

namespace Sys2Proof.Machine

/-- `MemRead(a, n)` (00_scope.md R11): `n` bytes at byte address `a`, defined only inside the block. -/
def Memory.read (m : Memory) (a n : Nat) : Except Err Bytes :=
  if a + n ≤ m.length then .ok ((m.drop a).take n) else .error .boundsError

/-- `MemWrite(a, n, v)` (R11): replaces the bytes at `a` by `v`, defined only inside the block. -/
def Memory.write (m : Memory) (a : Nat) (v : Bytes) : Except Err Memory :=
  if a + v.length ≤ m.length then .ok (m.take a ++ v ++ m.drop (a + v.length)) else .error .boundsError

/-- The byte at an address of the block; `none` outside it. -/
def Memory.byteAt (m : Memory) (a : Nat) : Option Byte := m[a]?

/-- `getBit(blk, p)` (R41): bit `7 - (p mod 8)` of byte `p div 8`. -/
def getBit (blk : Memory) (p : Nat) : Except Err Bit :=
  match blk.byteAt (p / 8) with
  | some b => .ok (b.getLsbD (7 - p % 8))
  | none => .error .boundsError

/-- A byte with its bit `k` replaced. -/
def Byte.withBit (b : Byte) (k : Nat) (v : Bit) : Byte :=
  if v then b ||| 1#8 <<< k else b &&& ~~~(1#8 <<< k)

/-- `setBit(blk, p, v)` (R42). -/
def setBit (blk : Memory) (p : Nat) (v : Bit) : Except Err Memory :=
  match blk.byteAt (p / 8) with
  | some b => .ok (blk.set (p / 8) (Byte.withBit b (7 - p % 8) v))
  | none => .error .boundsError

/-- `flipBit(blk, p)` (R43): `setBit(blk, p, 1 - getBit(blk, p))`, the only mutation self-correction makes. -/
def flipBit (blk : Memory) (p : Nat) : Except Err Memory :=
  match getBit blk p with
  | .ok v => setBit blk p (!v)
  | .error e => .error e

/-- `unpack(blk)` (R44): the codeword of a block, each byte most significant bit first. -/
def unpack (blk : Bytes) : Bits := blk.flatMap byteToBits

/-- `pack(cw)` (R44, 41 R107): the inverse, for a bit sequence whose length is a multiple of 8. Bits left over would
be dropped; no rule packs such a sequence (log entry 10). -/
def pack : Bits → Bytes
  | b7 :: b6 :: b5 :: b4 :: b3 :: b2 :: b1 :: b0 :: rest =>
    BitVec.ofNat 8 (bitsValue [b7, b6, b5, b4, b3, b2, b1, b0]) :: pack rest
  | _ => []

/-- `isParityPos(p)` (R54): 0 or a power of two. -/
def isParityPos (p : Nat) : Bool := p == 0 || p &&& (p - 1) == 0

/-- The content positions of a codeword in ascending order (R54). -/
def contentPositions (cfg : Config) : List Nat := (List.range cfg.nBits).filter fun p => !isParityPos p

/-- `cpos(j)` (R54), for `j < CONTENT_BITS`: the `j`-th content position. -/
def cpos (cfg : Config) (j : Nat) : Option Nat := (contentPositions cfg)[j]?

/-- `cidx(p)` (R54): the content index of a content position. -/
def cidx (p : Nat) : Nat := p - 2 - Nat.log2 p

/-- The loop of R121 over the bits of a codeword that begins at position `p`. -/
def contentFrom (p : Nat) : Bits → Bits
  | [] => []
  | b :: rest => if isParityPos p then contentFrom (p + 1) rest else b :: contentFrom (p + 1) rest

/-- `stripParity(blk)` (42 R121): the content bits, in ascending order of position. -/
def stripParity (blk : Bytes) : Bits := contentFrom 0 (unpack blk)

/-- The three header fields (30 R63, 42 R122). -/
structure Header where
  index    : Half
  size     : Half
  fragFlag : Byte
  deriving DecidableEq, Repr

/-- Content byte `m` (30 R63): `bitsToByte(content[8m .. 8m+8))`. -/
def contentByte (content : Bits) (m : Nat) : Except Err Byte := bitsToByte ((content.drop (8 * m)).take 8)

/-- `readHeader(content)` (42 R122), for a content of at least 40 bits; no value is rejected. A shorter content, which
no block of an admitted size has, would be a `LengthError` of the conversions (log entry 10). -/
def readHeader (content : Bits) : Except Err Header := do
  let b0 ← contentByte content 0
  let b1 ← contentByte content 1
  let b2 ← contentByte content 2
  let b3 ← contentByte content 3
  let b4 ← contentByte content 4
  let index ← bytesToInt16 [b0, b1]
  let size ← bytesToInt16 [b2, b3]
  return { index := index, size := size, fragFlag := b4 }

/-- Register P receives a packet, and `P.valid` becomes 1 (10 R25). -/
def State.load (s : State) (pkt : Packet) : State := { s with p := some pkt }

/-- STATUS.OUTCOME and STATUS.POS receive the outcome of a self-correction (10 R28). -/
def State.recordOutcome (s : State) (o : CorrectionOutcome) : State := { s with status := s.status.setOutcome o }

/-- A command ends with success (00 R11 `return`, 10 R27): STATUS.ERR and `rsp.err` are 0, and the response fields are
presented. -/
def State.respond (s : State) (r : Response) : State :=
  { s with status := s.status.setErr 0, rsp := some { r with err := 0 } }

/-- TAKING AN ERROR (60 R184): the command stops, STATUS.ERR and `rsp.err` receive the code, no result field holds a
value, and control goes nowhere: no vector, handler, mode change or saved state. There is no return from it (R185):
the next command runs as after any other. -/
def State.raise (s : State) (e : Err) : State :=
  { s with status := s.status.setErr e.code, rsp := some { err := e.code } }

/-- A command that computed a response or an error, without changing P, OUTCOME or POS, ends. -/
def State.finish (s : State) (r : Except Err Response) : State :=
  match r with
  | .ok rsp => s.respond rsp
  | .error e => s.raise e

/-- A command that needs a packet raises `NoPacket` when `P.valid = 0`, before anything else, and reads nothing
(60 R181). -/
def State.withPacket (s : State) (f : Packet → State) : State :=
  match s.p with
  | some pkt => f pkt
  | none => s.raise .noPacket

/-- An opcode outside the table (30 R74, 60 R179): `IllegalCommand`, nothing else changes. -/
def illegalCommand (s : State) : State := s.raise .illegalCommand

/-- The host presents a command on the port (10 R29), and `rest` is what it will do afterwards. -/
def State.present (s : State) (c : Command) (rest : List HostAction) : State :=
  { s with cmd := c, pending := rest }

/-- Reset (70 R200), between commands (R202): the state of 10 R35; the configuration stays (R201). `rest` is what the
host will do afterwards. -/
def State.applyReset (s : State) (rest : List HostAction) : State :=
  { State.reset with cfg := s.cfg, pending := rest }

/-- The command on the port, as its command word: the one byte of 30 R68. -/
def State.commandWord (s : State) : Bytes := [s.cmd.op]

end Sys2Proof.Machine
end

