-- ==== Sys2Proof/Machine/Encoder.lean ====
section
/-! DEFINITION. The encoder: the six steps of 41_hamming_encode.md and the command ENCODE. -/

namespace Sys2Proof.Machine

/-- Step 1, `buildContent` (R101): header, payload, and zero padding to exactly `CONTENT_BITS` bits. -/
def buildContent (cfg : Config) (index size : Half) (fragFlag : Byte) (payload : Bytes) : Bits :=
  let hb := int16ToBytes index ++ int16ToBytes size ++ [fragFlag] ++ payload
  unpack hb ++ List.replicate (cfg.contentBits - 8 * (headerBytes + payload.length)) false

/-- The loop of R102 over the positions `ps`: 0 at a parity position, the next content bit elsewhere. Content that
runs out is padded with 0; a content of `CONTENT_BITS` bits does not (log entry 10). -/
def placeContent : List Nat → Bits → Bits
  | [], _ => []
  | p :: ps, content =>
    if isParityPos p then false :: placeContent ps content
    else
      match content with
      | [] => false :: placeContent ps []
      | b :: rest => b :: placeContent ps rest

/-- Step 2, `insertParity` (R102). -/
def insertParity (cfg : Config) (content : Bits) : Bits := placeContent (List.range cfg.nBits) content

/-- Step 4, `distributeSyndrome` (R104, C12): the parity bit at `2^k` is set when bit `k` of `syn` is 1. -/
def distributeSyndrome (cfg : Config) (cw : Bits) (syn : Nat) : Bits :=
  (List.range cfg.kPar).foldl (fun acc k => if syn.testBit k then acc.set (2 ^ k) true else acc) cw

/-- Step 5, `setGlobalParity` (R105): position 0 becomes the parity of all other bits. -/
def setGlobalParity : Bits → Bits
  | [] => []
  | _ :: rest => totalParity rest :: rest

/-- Steps 2 to 6 (R102 to R107): the block that protects a content. -/
def protect (cfg : Config) (content : Bits) : Bytes :=
  let cw := insertParity cfg content
  pack (setGlobalParity (distributeSyndrome cfg cw (syndrome cw)))

/-- `encodeFn` (R108): the size check first, then the flag check (D11), then the six steps. -/
def encodeFn (cfg : Config) (index : Half) (fragFlag : Byte) (payload : Bytes) : Except Err Packet :=
  if payload.length > cfg.dataBytesValid then .error .payloadTooLarge
  else if fragFlag ≠ 0 ∧ fragFlag ≠ 1 then .error .invalidFragFlag
  else
    let size : Half := BitVec.ofNat 16 payload.length
    .ok { block := protect cfg (buildContent cfg index size fragFlag payload),
          index := index, size := size, fragFlag := fragFlag }

/-- The header fields of a packet, as ENCODE, PARSE and TOPAYLOAD present them (10 R29). -/
def Packet.headerResponse (pkt : Packet) (bytes : Option Bytes) : Response :=
  { bytes := bytes, index := some pkt.index, size := some pkt.size, flag := some pkt.fragFlag }

/-- ENCODE (R109): on success P receives the packet and the block is returned; on failure P is unchanged. -/
def execEncode (s : State) : Host.Outcome State Fault Refusal :=
  .next (match encodeFn s.cfg s.cmd.index s.cmd.flag s.cmd.bytes with
    | .ok pkt => (s.load pkt).respond (pkt.headerResponse (some pkt.block))
    | .error e => s.raise e)

end Sys2Proof.Machine
end

