-- ==== Sys2Proof/Machine/Parse.lean ====
section
/-! DEFINITION. PARSE (43_parse.md): an encoded block enters P, without correction and without validation. -/

namespace Sys2Proof.Machine

/-- `parseFn` (R140): only the length is checked (R142); the header is read from the uncorrected block. -/
def parseFn (cfg : Config) (bytes : Bytes) : Except Err Packet :=
  if bytes.length ≠ cfg.dataBytes then .error .invalidBlockSize
  else (readHeader (stripParity bytes)).map fun h =>
    { block := bytes, index := h.index, size := h.size, fragFlag := h.fragFlag }

/-- PARSE (R141, R144): on success P is replaced whole; on failure it is unchanged. -/
def execParse (s : State) : Host.Outcome State Fault Refusal :=
  .next (match parseFn s.cfg s.cmd.bytes with
    | .ok pkt => (s.load pkt).respond (pkt.headerResponse none)
    | .error e => s.raise e)

end Sys2Proof.Machine
end

