-- ==== Sys2Proof/Machine/Decoder.lean ====
section
/-! DEFINITION. The syndrome unit, the parity checker and the error-correcting decoder (42_decode_correct.md). -/

namespace Sys2Proof.Machine

/-- SYNDROME (R123). -/
def execSyndrome (s : State) : Host.Outcome State Fault Refusal :=
  .next (s.withPacket fun pkt => s.respond { value := some (syndrome (unpack pkt.block)) })

/-- PARITY (R124). -/
def execParity (s : State) : Host.Outcome State Fault Refusal :=
  .next (s.withPacket fun pkt => s.respond { value := some (totalParity (unpack pkt.block)).toNat })

/-- `selfCorrectFn` (R125), the decision tree: syndrome 0, no error found (C2: whatever the parity); odd parity, the
bit at the syndrome position is flipped, with `BoundsError` when that position is outside the block (case d, C5); even
parity, uncorrectable and unchanged. -/
def selfCorrectFn (blk : Memory) : Except Err (Memory × CorrectionOutcome) :=
  let s := syndrome (unpack blk)
  if s = 0 then .ok (blk, .noErrorFound)
  else if totalParity (unpack blk) then (flipBit blk s).map fun b => (b, .corrected s)
  else .ok (blk, .uncorrectableDoubleError)

/-- SELFCORRECT (R126): the header cache is not refreshed (10 R33); `UncorrectableDoubleError` is an outcome, not an
error (60 R191). -/
def execSelfcorrect (s : State) : Host.Outcome State Fault Refusal :=
  .next (s.withPacket fun pkt =>
    match selfCorrectFn pkt.block with
    | .ok (b, o) => ((s.load { pkt with block := b }).recordOutcome o).respond { outcome := some o.code }
    | .error e => s.raise e)

/-- Steps 2 to 5 and 7 of R128 on a corrected block: strip, re-read the header, check the size (R129: signed, so a
negative size fails) and then the flag (R130), and take the `size` payload bytes after the header; the padding is not
read (R133). -/
def extractPayload (cfg : Config) (blk : Memory) : Except Err (Header × Bytes) :=
  let content := stripParity blk
  match readHeader content with
  | .error e => .error e
  | .ok h =>
    if h.size.toInt < 0 ∨ h.size.toInt > cfg.dataBytesValid then .error .sizeOutOfRange
    else if h.fragFlag ≠ 0 ∧ h.fragFlag ≠ 1 then .error .invalidFragFlag
    else .ok (h, pack ((content.drop (8 * headerBytes)).take (8 * h.size.toNat)))

/-- `toPayloadFn` (R128) run on a packet that stands in P, in place (R132): the corrected bit is kept and OUTCOME and
POS are written even when a later check fails; the header cache is rewritten on success only (R131). -/
def toPayloadStep (s : State) (pkt : Packet) : State × Except Err (Packet × Bytes) :=
  match selfCorrectFn pkt.block with
  | .error e => (s, .error e)
  | .ok (b, o) =>
    let s1 := (s.load { pkt with block := b }).recordOutcome o
    if o = .uncorrectableDoubleError then (s1, .error .uncorrectableError)
    else
      match extractPayload s.cfg b with
      | .error e => (s1, .error e)
      | .ok (h, payload) =>
        let pkt' : Packet := { block := b, index := h.index, size := h.size, fragFlag := h.fragFlag }
        (s1.load pkt', .ok (pkt', payload))

/-- TOPAYLOAD (R132). -/
def execTopayload (s : State) : Host.Outcome State Fault Refusal :=
  .next (s.withPacket fun pkt =>
    match toPayloadStep s pkt with
    | (s1, .ok (pkt', payload)) => s1.respond (pkt'.headerResponse (some payload))
    | (s1, .error e) => s1.raise e)

end Sys2Proof.Machine
end

