-- ==== Sys2Proof/Machine/Fragmentation.lean ====
section
/-! DEFINITION. The packet fragmentation sequencer: SPLIT and JOIN (44_fragmentation.md). -/

namespace Sys2Proof.Machine

/-- The number of chunks (R151): `max(1, ceil(L / V))`. -/
def chunkCount (cfg : Config) (len : Nat) : Nat :=
  max 1 ((len + cfg.dataBytesValid - 1) / cfg.dataBytesValid)

/-- Chunk `i` (R151): `payload[i*V .. min((i+1)*V, L))`. -/
def chunk (cfg : Config) (payload : Bytes) (i : Nat) : Bytes :=
  (payload.drop (i * cfg.dataBytesValid)).take cfg.dataBytesValid

/-- The flag of chunk `i` of `n` (R152): 1 on the last, 0 on the others. -/
def chunkFlag (n i : Nat) : Byte := if i + 1 = n then 1 else 0

/-- The largest number of fragments an `i16` index counts (R153). -/
def maxFragments : Nat := 32768

/-- `splitFn` (R152): `IndexOverflow` before anything is encoded (R153), else one packet per chunk, in ascending index. -/
def splitFn (cfg : Config) (payload : Bytes) : Except Err (List Packet) :=
  let n := chunkCount cfg payload.length
  if n > maxFragments then .error .indexOverflow
  else (List.range n).mapM fun i => encodeFn cfg (BitVec.ofNat 16 i) (chunkFlag n i) (chunk cfg payload i)

/-- P receives the last packet of a list (R154); there always is one, as a payload has at least one chunk. -/
def State.loadLast (s : State) (pkts : List Packet) : State :=
  match pkts.getLast? with
  | some pkt => s.load pkt
  | none => s

/-- SPLIT (R154). -/
def execSplit (s : State) : Host.Outcome State Fault Refusal :=
  .next (match splitFn s.cfg s.cmd.bytes with
    | .ok pkts => (s.loadLast pkts).respond { blocks := some (pkts.map (·.block)) }
    | .error e => s.raise e)

/-- `joinFn` (R156) with P as the working packet (R159). `expected` and `out` are the local counter and output (R150).
Each block is parsed into P as by PARSE, decoded in place as by TOPAYLOAD, and then its re-read index and flag are
tested (R157, C13); blocks after a final fragment are not looked at (R162). The state returned is P, OUTCOME and POS as
the completed steps left them. -/
def joinLoop (expected : Nat) (out : Bytes) : List Bytes → State → State × Except Err Bytes
  | [], s => (s, .error .missingFragment)
  | blk :: rest, s =>
    match parseFn s.cfg blk with
    | .error e => (s, .error e)
    | .ok pkt =>
      match toPayloadStep (s.load pkt) pkt with
      | (s1, .error e) => (s1, .error e)
      | (s1, .ok (pkt', bytes)) =>
        if pkt'.index.toInt ≠ expected then (s1, .error .missingFragment)
        else if pkt'.fragFlag = 1 then (s1, .ok (out ++ bytes))
        else joinLoop (expected + 1) (out ++ bytes) rest s1

/-- JOIN (R159): on an error no payload is returned (D34). -/
def execJoin (s : State) : Host.Outcome State Fault Refusal :=
  .next (match joinLoop 0 [] s.cmd.blocks s with
    | (s1, .ok payload) => s1.respond { bytes := some payload }
    | (s1, .error e) => s1.raise e)

end Sys2Proof.Machine
end

