-- ==== Sys2Proof/Machine/Utilities.lean ====
section
/-! DEFINITION. The six bit/byte utility commands (40_bit_byte_utilities.md, odd rules). None touches P, OUTCOME or
POS; each writes STATUS.ERR. -/

namespace Sys2Proof.Machine

/-- BYTE2BITS (R81). -/
def execByte2bits (s : State) : Host.Outcome State Fault Refusal :=
  .next (s.finish ((Operand.oneByte s.cmd).map fun b => { bits := some (byteToBits b) }))

/-- BITS2BYTE (R83). -/
def execBits2byte (s : State) : Host.Outcome State Fault Refusal :=
  .next (s.finish ((bitsToByte s.cmd.bits).map fun b => { value := some b.toNat }))

/-- INT16TOBYTES (R85): total. -/
def execInt16tobytes (s : State) : Host.Outcome State Fault Refusal :=
  .next (s.respond { bytes := some (int16ToBytes (Operand.half s.cmd)) })

/-- BYTESTOINT16 (R87). -/
def execBytestoint16 (s : State) : Host.Outcome State Fault Refusal :=
  .next (s.finish ((bytesToInt16 s.cmd.bytes).map fun x => { value := some x.toInt }))

/-- INT32TOBYTES (R89): total. -/
def execInt32tobytes (s : State) : Host.Outcome State Fault Refusal :=
  .next (s.respond { bytes := some (int32ToBytes s.cmd.value) })

/-- BYTESTOINT32 (R91). -/
def execBytestoint32 (s : State) : Host.Outcome State Fault Refusal :=
  .next (s.finish ((bytesToInt32 s.cmd.bytes).map fun x => { value := some x.toInt }))

end Sys2Proof.Machine
end

