-- ==== Sys2Proof/Machine/Dispatch.lean ====
section
/-! DEFINITION. One arm per command of the opcode table (30_encoding.md R71, R73). -/

namespace Sys2Proof.Machine

def exec (i : Instr) (s : State) : Host.Outcome State Fault Refusal :=
  match i with
  | .byte2bits => Sys2Proof.Machine.execByte2bits s
  | .bits2byte => Sys2Proof.Machine.execBits2byte s
  | .int16tobytes => Sys2Proof.Machine.execInt16tobytes s
  | .bytestoint16 => Sys2Proof.Machine.execBytestoint16 s
  | .int32tobytes => Sys2Proof.Machine.execInt32tobytes s
  | .bytestoint32 => Sys2Proof.Machine.execBytestoint32 s
  | .encode => Sys2Proof.Machine.execEncode s
  | .parse => Sys2Proof.Machine.execParse s
  | .syndrome => Sys2Proof.Machine.execSyndrome s
  | .parity => Sys2Proof.Machine.execParity s
  | .selfcorrect => Sys2Proof.Machine.execSelfcorrect s
  | .topayload => Sys2Proof.Machine.execTopayload s
  | .split => Sys2Proof.Machine.execSplit s
  | .join => Sys2Proof.Machine.execJoin s

end Sys2Proof.Machine
end

