-- ==== Sys2Proof/Machine/Step.lean ====
section
/-! DEFINITION. One step of a unit: the host's next action, to completion (70_reset_and_hazards.md R213 a). The unit
fetches nothing (10_state.md R31, 20_memory.md R58): the command it executes is the one on the command port. -/

namespace Sys2Proof.Machine

/-- One step: a reset, or one whole command (R51 of 20_memory.md: atomic). With nothing pending the unit waits, and the
model has no step (log entry 4). An opcode outside the table raises `IllegalCommand` (30 R74). -/
def step (s : State) : Host.Outcome State Fault Refusal :=
  match s.pending with
  | [] => .fault .noCommand
  | .reset :: rest => .next (s.applyReset rest)
  | .command c :: rest =>
    match decode (s.present c rest).commandWord with
    | .ok (i, _) => exec i (s.present c rest)
    | .error _ => .next (illegalCommand (s.present c rest))

/-- The state in which the host's next action is to issue the command whose table bits are `w`, with every operand
field zero or empty (log entry 3). Nothing else changes. -/
def State.withFetchWord (s : State) (nbits w : Nat) : State :=
  { s with pending := .command { Command.idle with op := (tableBytes nbits w).headD 0 } :: s.pending }

end Sys2Proof.Machine
end

