-- ==== Sys2Proof/Machine/Channel.lean ====
section
/-! DEFINITION. The channel (70_reset_and_hazards.md R210, R213 c): the only agent that flips bits, and only in blocks
that stand outside the unit. No step of the unit calls it; the statements about corrupted blocks do. -/

namespace Sys2Proof.Machine

/-- The channel flips the bits at the positions `flips` of a block, in turn. -/
def Channel.corrupt (blk : Memory) (flips : List Nat) : Except Err Memory := flips.foldlM flipBit blk

/-- The exclusive-or of a list of positions, `x(E)` of 42 R127. -/
def Channel.xorOf (flips : List Nat) : Nat := flips.foldr (· ^^^ ·) 0

end Sys2Proof.Machine
end

