-- ==== Sys2Proof/Machine/System.lean ====
section
/-! DEFINITION. Several units (00_scope.md R8, 60_exceptions.md R188, 20_memory.md R56): the product of single-unit
states, with any interleaving of their commands. `NUM_UNITS` is the length of the list. -/

namespace Sys2Proof.Machine

/-- The states of all units; nothing is shared between them (R188). -/
abbrev System := List State

/-- Unit `k` makes one step, by itself; the caller chooses the interleaving (R188). -/
def System.stepUnit (sys : System) (k : Nat) : Host.Outcome System Fault Refusal :=
  match sys[k]? with
  | none => .fault .noUnit
  | some s =>
    match step s with
    | .next s' => .next (sys.set k s')
    | .fault r => .fault r
    | .refused r => .refused r

end Sys2Proof.Machine
end

