-- ==== Sys2Proof/Safety.lean ====
section
/-! DEFINITION. What the statements about the machine are phrased in: the invariant of a unit, what a command changes
when it only answers, and the reference forms of the composite commands. Nothing here is part of the machine. -/

namespace Sys2Proof.Machine

/-- P holds a block of exactly `DATA_BYTES` bytes, if it holds a packet (10_state.md R21). -/
def State.BlockWf (s : State) : Prop := ∀ pkt, s.p = some pkt → Memory.wf s.cfg pkt.block = true

/-- The invariant of a unit: what holds of it between commands, whatever the host does. -/
structure State.Inv (s : State) : Prop where
  /-- R21: the block's length never changes. -/
  block : s.BlockWf
  /-- R170: codes 12 to 255 are never produced. -/
  err : s.status.err.toNat ≤ 11
  /-- R28: OUTCOME 3 is never written. -/
  outcome : s.status.outcome ≠ 3
  /-- R28: POS is 0 unless OUTCOME is 1. -/
  posZero : s.status.outcome ≠ 1 → s.status.pos = 0
  /-- R28, R103: POS is a position of the block, and position 0 is never corrected. -/
  posRange : s.status.outcome = 1 → 1 ≤ s.status.pos ∧ s.status.pos < s.cfg.nBits
  /-- R29: `rsp.err` equals STATUS.ERR, and a response with an error has no result field. -/
  rsp : ∀ r, s.rsp = some r → r.err = s.status.err ∧ (r.err ≠ 0 → r = { err := r.err })

/-- From `s` to `t` at most STATUS.ERR and the response port changed. -/
structure OnlyAnswered (s t : State) : Prop where
  cfg     : t.cfg = s.cfg
  p       : t.p = s.p
  outcome : t.status.outcome = s.status.outcome
  pos     : t.status.pos = s.status.pos
  cmd     : t.cmd = s.cmd
  pending : t.pending = s.pending

/-- From `s` to `t` the command succeeded with response `r` and changed nothing but STATUS.ERR. -/
def Answered (s t : State) (r : Response) : Prop :=
  OnlyAnswered s t ∧ t.status.err = 0 ∧ t.rsp = some { r with err := 0 }

/-- From `s` to `t` the command raised the error with code `e` and changed nothing but STATUS.ERR (60 R184). -/
def RaisedCode (s t : State) (e : BitVec 8) : Prop :=
  OnlyAnswered s t ∧ t.status.err = e ∧ t.rsp = some { err := e }

/-- The parts of the state no command changes: the configuration (10 R32, 70 R201), and, as the model chose to hold them,
the command port (log entry 5) and the host's further actions (log entry 3). -/
abbrev KeptByCommands (s t : State) : Prop := t.cfg = s.cfg ∧ t.cmd = s.cmd ∧ t.pending = s.pending

/-- The header cache and the validity of a packet register (10 R33), without the block. -/
def State.cache (s : State) : Option (Half × Half × Byte) := s.p.map fun pkt => (pkt.index, pkt.size, pkt.fragFlag)

/-- The positions of the set bits of a block, read through `getBit`, in ascending order. -/
def setPositions (blk : Memory) : List Nat :=
  (List.range (8 * blk.length)).filter fun p => (getBit blk p).toOption == some true

/-- A block that is a valid codeword (30 R61), by its set positions: their exclusive-or is 0 and their number is even. -/
abbrev ValidCodeword (blk : Memory) : Prop :=
  Channel.xorOf (setPositions blk) = 0 ∧ (setPositions blk).length % 2 = 0

/-- Content bit `j` of a header and payload as 30 R64 to R67 lay it out. -/
def layoutBit (index size : Half) (flag : Byte) (payload : Bytes) (j : Nat) : Bit :=
  if j < 16 then index.getLsbD (15 - j)
  else if j < 32 then size.getLsbD (31 - j)
  else if j < 40 then flag.getLsbD (39 - j)
  else (payload.getD ((j - 40) / 8) 0).getLsbD (7 - (j - 40) % 8)

/-- A block `blk'` that left the channel with at most one bit of `blk` flipped (44 R161). -/
def AtMostOneFlip (blk blk' : Memory) : Prop := blk' = blk ∨ ∃ p, Channel.corrupt blk [p] = .ok blk'

/-- The command port with another operand in `cmd.bytes`. -/
def State.withBytes (s : State) (bytes : Bytes) : State := { s with cmd := { s.cmd with bytes := bytes } }

/-- The command port with another list in `cmd.blocks`. -/
def State.withBlocks (s : State) (blocks : List Bytes) : State := { s with cmd := { s.cmd with blocks := blocks } }

/-- A host that reassembles a list of blocks itself (44 R159, R160): PARSE, then TOPAYLOAD, for each block, stopping at
the first error, with the index and flag tests of R156 on TOPAYLOAD's response in between. It returns the unit's state,
the error code and the payload. -/
def hostJoin (expected : Nat) (out : Bytes) : List Bytes → State → State × BitVec 8 × Option Bytes
  | [], s => (s, Err.missingFragment.code, none)
  | blk :: rest, s =>
    match exec .parse (s.withBytes blk) with
    | .next s1 =>
      if s1.status.err ≠ 0 then (s1, s1.status.err, none)
      else
        match exec .topayload s1 with
        | .next s2 =>
          if s2.status.err ≠ 0 then (s2, s2.status.err, none)
          else
            match s2.rsp with
            | some { bytes := some bytes, index := some index, flag := some flag, .. } =>
              if index.toInt ≠ expected then (s2, Err.missingFragment.code, none)
              else if flag = 1 then (s2, 0, some (out ++ bytes))
              else hostJoin (expected + 1) (out ++ bytes) rest s2
            | _ => (s2, 0, none)
        | _ => (s1, 0, none)
    | _ => (s, 0, none)

/-- A packet that ENCODE makes from some payload at this sizing. -/
abbrev Encoded (cfg : Config) (pkt : Packet) (payload : Bytes) : Prop :=
  encodeFn cfg pkt.index pkt.fragFlag payload = .ok pkt

/-- The errors each command may report (60 R170, column "raised by"), by code. -/
def errorsOf : Instr → List (BitVec 8)
  | .byte2bits | .bits2byte | .bytestoint16 | .bytestoint32 => [1]
  | .int16tobytes | .int32tobytes => []
  | .encode => [2, 3]
  | .parse => [4]
  | .syndrome | .parity => [10]
  | .selfcorrect => [8, 10]
  | .topayload => [3, 5, 6, 8, 10]
  | .split => [11]
  | .join => [3, 4, 5, 6, 7, 8]

/-- Two commands agree on the operand fields that an instruction reads (30 R69). -/
abbrev SameOperands : Instr → Command → Command → Prop
  | .byte2bits, c, d | .bytestoint16, c, d | .bytestoint32, c, d | .parse, c, d | .split, c, d => c.bytes = d.bytes
  | .bits2byte, c, d => c.bits = d.bits
  | .int16tobytes, c, d => c.value.toNat % 2 ^ 16 = d.value.toNat % 2 ^ 16
  | .int32tobytes, c, d => c.value = d.value
  | .encode, c, d => c.index = d.index ∧ c.flag = d.flag ∧ c.bytes = d.bytes
  | .syndrome, _, _ | .parity, _, _ | .selfcorrect, _, _ | .topayload, _, _ => True
  | .join, c, d => c.blocks = d.blocks

end Sys2Proof.Machine
end

