-- ==== Sys2Proof/Certificates/Slice0/Obligations.lean ====
section
/-! DEFINITION. The statements about the model, from the numbered rules of spec/. Each docstring names the rule. -/

open Sys2Proof Sys2Proof.Machine

/-! ### Sizes, reset, decoding, one step -/

/-- 00 R5, R6: the hardware's `DATA_BYTES`, the definitions of the derived sizes at every admitted `DATA_BYTES`, and
their values at 4096. -/
def Obligations.HardwareHasTheDerivedSizes : Prop :=
  (∀ cfg : Config, cfg.nBits = 8 * cfg.dataBytes ∧ (∀ k, k < cfg.kPar ↔ 2 ^ k < cfg.nBits) ∧
    cfg.kPar = Nat.log2 (cfg.nBits - 1) + 1 ∧ cfg.contentBits + 1 + cfg.kPar = cfg.nBits ∧
    (contentPositions cfg).length = cfg.contentBits ∧ cfg.contentBytes = cfg.contentBits / 8 ∧
    cfg.dataBytesValid + 5 = cfg.contentBytes ∧ (∀ k, cfg.posBits ≤ k ↔ cfg.nBits ≤ 2 ^ k)) ∧
  Config.hardware.dataBytes = 4096 ∧ Config.hardware.nBits = 32768 ∧ Config.hardware.kPar = 15 ∧
    Config.hardware.contentBits = 32752 ∧ Config.hardware.contentBytes = 4094 ∧
    Config.hardware.dataBytesValid = 4089 ∧ Config.hardware.posBits = 15 ∧ State.reset.cfg = Config.hardware

/-- 20 R54: `cidx` is the inverse of `cpos`, and both range over the positions that are not parity positions. -/
def Obligations.ContentIndexInvertsContentPosition : Prop :=
  ∀ cfg : Config,
    (∀ j p, cpos cfg j = some p → 3 ≤ p ∧ p < cfg.nBits ∧ isParityPos p = false ∧ cidx p = j) ∧
    (∀ p, p < cfg.nBits → (p ≠ 0 ∧ ∀ k, p ≠ 2 ^ k) → cpos cfg (cidx p) = some p)

/-- 10 R35: the values after reset, the error `NoPacket` (10) on a use of the unloaded packet register, and that the
ports have no state: whatever they are said to hold, the unit does the same. -/
def Obligations.ResetLeavesNoPacketAndZeroStatus : Prop :=
  State.reset.p = none ∧ State.reset.status.err = 0 ∧ State.reset.status.outcome = 0 ∧
    State.reset.status.pos = 0 ∧
    (∀ i ∈ [Instr.syndrome, .parity, .selfcorrect, .topayload],
      ∃ t, exec i State.reset = .next t ∧ RaisedCode State.reset t 10) ∧
    ∀ (c : Command) (r : Option Response) (todo : List HostAction),
      step { State.reset with cmd := c, rsp := r, pending := todo } = step { State.reset with pending := todo }

/-- 70 R200: a reset, between commands, puts a unit into the state of R35, and keeps the configuration (R201). That the
host's further actions are kept is the model's reading (log entries 3 and 11), no rule's. -/
def Obligations.ResetActionRestoresResetValues : Prop :=
  ∀ (s : State) (rest : List HostAction), s.pending = .reset :: rest →
    ∃ t, step s = .next t ∧ t.p = none ∧ t.status.err = 0 ∧ t.status.outcome = 0 ∧ t.status.pos = 0 ∧
      t.cfg = s.cfg ∧ t.pending = rest

/-- 30 R71: the opcodes of the table decode to their commands. -/
def Obligations.TableOpcodesDecodeToTheirCommands : Prop :=
  ∀ r ∈ [((0b00000001#8 : Byte), Instr.byte2bits), (0b00000010#8, .bits2byte), (0b00000011#8, .int16tobytes),
      (0b00000100#8, .bytestoint16), (0b00000101#8, .int32tobytes), (0b00000110#8, .bytestoint32),
      (0b00010000#8, .encode), (0b00010001#8, .parse), (0b00010010#8, .syndrome), (0b00010011#8, .parity),
      (0b00010100#8, .selfcorrect), (0b00010101#8, .topayload), (0b00100000#8, .split), (0b00100001#8, .join)],
    decode [r.1] = .ok (r.2, [])

/-- 30 R72, R73: bytes decode to an instruction exactly when they begin with its encoding. -/
def Obligations.DecodingReadsExactlyTheEncodedWord : Prop :=
  ∀ (bytes : Bytes) (i : Instr) (rest : Bytes), decode bytes = .ok (i, rest) ↔ bytes = Sys2Proof.encode i ++ rest

/-- 30 R73: when the opcode presented decodes to a command, a step runs that command with the operands presented, whatever
they are; otherwise the step is that of an illegal opcode. -/
def Obligations.StepRunsTheDecodedCommand : Prop :=
  ∀ (s : State) (c : Command) (rest : List HostAction) (i : Instr),
    s.pending = .command c :: rest →
      (decode [c.op] = .ok (i, []) → step s = exec i { s with cmd := c, pending := rest }) ∧
      ((∀ j r, decode [c.op] ≠ .ok (j, r)) → step s = .next (illegalCommand { s with cmd := c, pending := rest }))

/-- 30 R74: each of the 242 opcodes outside the table raises `IllegalCommand` (9) and changes nothing else. -/
def Obligations.IllegalOpcodesRaiseIllegalCommand : Prop :=
  ∀ (s : State) (c : Command) (rest : List HostAction), s.pending = .command c :: rest →
    (c.op.toNat = 0x00 ∨ (0x07 ≤ c.op.toNat ∧ c.op.toNat ≤ 0x0F) ∨ (0x16 ≤ c.op.toNat ∧ c.op.toNat ≤ 0x1F) ∨
      0x22 ≤ c.op.toNat) →
    ∃ t, step s = .next t ∧ RaisedCode { s with cmd := c, pending := rest } t 9

/-- 60 R181: the decode-side commands raise `NoPacket` (10) while `P.valid = 0`. -/
def Obligations.DecodeSideCommandsNeedAPacket : Prop :=
  ∀ (s : State) (i : Instr), s.p = none → i ∈ [Instr.syndrome, .parity, .selfcorrect, .topayload] →
    ∃ t, exec i s = .next t ∧ RaisedCode s t 10

/-! ### Bit access -/

/-- 20 R41, R42: `getBit` reads bit `7 - (p mod 8)` of byte `p div 8`, `setBit` writes that position and leaves every
other, and outside the block both raise `BoundsError`. -/
def Obligations.SetBitWritesOnePosition : Prop :=
  ∀ (blk : Memory) (p : Nat) (v : Bit),
    (p < 8 * blk.length → ∃ b blk', blk[p / 8]? = some b ∧ getBit blk p = .ok (b.getLsbD (7 - p % 8)) ∧
      setBit blk p v = .ok blk' ∧ blk'.length = blk.length ∧ getBit blk' p = .ok v ∧ ∀ q, q ≠ p → getBit blk' q = getBit blk q) ∧
    (8 * blk.length ≤ p → getBit blk p = .error .boundsError ∧ setBit blk p v = .error .boundsError)

/-- 20 R43: `flipBit` sets the complement of the bit, exclusive-ors byte `p div 8` with `2^(7 - (p mod 8))`, and has the
same bounds rule. -/
def Obligations.FlipBitXorsOneByte : Prop :=
  ∀ (blk : Memory) (p : Nat),
    (∀ v, getBit blk p = .ok v → flipBit blk p = setBit blk p (!v)) ∧
    (∀ b, blk[p / 8]? = some b →
      flipBit blk p = .ok (blk.set (p / 8) (b ^^^ BitVec.ofNat 8 (2 ^ (7 - p % 8))))) ∧
    (8 * blk.length ≤ p → flipBit blk p = .error .boundsError)

/-! ### The bit/byte utilities -/

/-- 40 R81: BYTE2BITS. -/
def Obligations.Byte2BitsGivesBitsMostSignificantFirst : Prop :=
  ∀ s : State,
    (∀ b, s.cmd.bytes = [b] → ∃ t bits, exec .byte2bits s = .next t ∧ bits.length = 8 ∧
      (∀ k, k < 8 → bits[k]? = some (b.getLsbD (7 - k))) ∧ Answered s t { bits := some bits }) ∧
    (s.cmd.bytes.length ≠ 1 → ∃ t, exec .byte2bits s = .next t ∧ RaisedCode s t 1)

/-- 40 R82, R83: BITS2BYTE. -/
def Obligations.Bits2ByteGivesWeightedSum : Prop :=
  ∀ s : State,
    (s.cmd.bits.length = 8 → ∃ t, exec .bits2byte s = .next t ∧
      Answered s t
        { value := some ((∑ k ∈ Finset.range 8, (s.cmd.bits.getD k false).toNat * 2 ^ (7 - k) : Nat) : Int) }) ∧
    (s.cmd.bits.length ≠ 8 → ∃ t, exec .bits2byte s = .next t ∧ RaisedCode s t 1)

/-- 40 R85 (with R84): INT16TOBYTES uses the low 16 bits of the operand and is total. -/
def Obligations.Int16ToBytesIsBigEndian : Prop :=
  ∀ s : State, ∃ t hi lo, exec .int16tobytes s = .next t ∧ Answered s t { bytes := some [hi, lo] } ∧
    hi.toNat = s.cmd.value.toNat % 65536 / 256 ∧ lo.toNat = s.cmd.value.toNat % 256

/-- 40 R86, R87: BYTESTOINT16. -/
def Obligations.BytesToInt16IsSignedBigEndian : Prop :=
  ∀ s : State,
    (∀ hi lo, s.cmd.bytes = [hi, lo] → ∃ t, exec .bytestoint16 s = .next t ∧
      let v : Int := hi.toNat * 256 + lo.toNat
      Answered s t { value := some (if v < 2 ^ 15 then v else v - 2 ^ 16) }) ∧
    (s.cmd.bytes.length ≠ 2 → ∃ t, exec .bytestoint16 s = .next t ∧ RaisedCode s t 1)

/-- 40 R89 (with R88): INT32TOBYTES. -/
def Obligations.Int32ToBytesIsBigEndian : Prop :=
  ∀ s : State, ∃ t b3 b2 b1 b0, exec .int32tobytes s = .next t ∧
    Answered s t { bytes := some [b3, b2, b1, b0] } ∧
    b3.toNat = s.cmd.value.toNat / 2 ^ 24 ∧ b2.toNat = s.cmd.value.toNat / 2 ^ 16 % 256 ∧
    b1.toNat = s.cmd.value.toNat / 2 ^ 8 % 256 ∧ b0.toNat = s.cmd.value.toNat % 256

/-- 40 R90, R91: BYTESTOINT32. -/
def Obligations.BytesToInt32IsSignedBigEndian : Prop :=
  ∀ s : State,
    (∀ b3 b2 b1 b0, s.cmd.bytes = [b3, b2, b1, b0] → ∃ t, exec .bytestoint32 s = .next t ∧
      let v : Int := b3.toNat * 2 ^ 24 + b2.toNat * 2 ^ 16 + b1.toNat * 2 ^ 8 + b0.toNat
      Answered s t { value := some (if v < 2 ^ 31 then v else v - 2 ^ 32) }) ∧
    (s.cmd.bytes.length ≠ 4 → ∃ t, exec .bytestoint32 s = .next t ∧ RaisedCode s t 1)

/-- 40 R92 a: the conversions are inverse to each other. -/
def Obligations.ConversionsAreInverse : Prop :=
  (∀ b : Byte, bitsToByte (byteToBits b) = .ok b) ∧
  (∀ s : Bits, s.length = 8 → ∃ b, bitsToByte s = .ok b ∧ byteToBits b = s) ∧
  (∀ x : Half, bytesToInt16 (int16ToBytes x) = .ok x) ∧
  (∀ s : Bytes, s.length = 2 → ∃ x, bytesToInt16 s = .ok x ∧ int16ToBytes x = s) ∧
  (∀ x : Word, bytesToInt32 (int32ToBytes x) = .ok x) ∧
  (∀ s : Bytes, s.length = 4 → ∃ x, bytesToInt32 s = .ok x ∧ int32ToBytes x = s)

/-- 40 R92 b: within one sign the byte sequences order as the integers do; across the sign they do not (C4). -/
def Obligations.ConversionsKeepOrderWithinOneSign : Prop :=
  let lex (a b : Bytes) : Prop := List.Lex (· < ·) (a.map BitVec.toNat) (b.map BitVec.toNat)
  (∀ x y : Half, (0 ≤ x.toInt ↔ 0 ≤ y.toInt) → (x.toInt < y.toInt ↔ lex (int16ToBytes x) (int16ToBytes y))) ∧
  (∀ x y : Word, (0 ≤ x.toInt ↔ 0 ≤ y.toInt) → (x.toInt < y.toInt ↔ lex (int32ToBytes x) (int32ToBytes y))) ∧
  (∀ x y : Half, x.toInt < 0 → 0 ≤ y.toInt → lex (int16ToBytes y) (int16ToBytes x))

/-! ### ENCODE -/

/-- 41 R109 (with R108): ENCODE loads P, returns the block and the header, and leaves OUTCOME and POS; a payload that is
too large, and then a flag outside 0 and 1, is rejected with P unchanged. -/
def Obligations.EncodeLoadsPacketOrRejects : Prop :=
  ∀ s : State,
    (s.cmd.bytes.length ≤ s.cfg.dataBytesValid → (s.cmd.flag = 0 ∨ s.cmd.flag = 1) →
      ∃ t pkt, exec .encode s = .next t ∧ encodeFn s.cfg s.cmd.index s.cmd.flag s.cmd.bytes = .ok pkt ∧
        t.p = some pkt ∧ pkt.index = s.cmd.index ∧ pkt.size.toInt = s.cmd.bytes.length ∧
        pkt.fragFlag = s.cmd.flag ∧ pkt.block.length = s.cfg.dataBytes ∧ ValidCodeword pkt.block ∧
        t.status = { s.status with err := 0 } ∧ KeptByCommands s t ∧
        t.rsp = some { bytes := some pkt.block, index := some pkt.index, size := some pkt.size,
                       flag := some pkt.fragFlag }) ∧
    (s.cfg.dataBytesValid < s.cmd.bytes.length → ∃ t, exec .encode s = .next t ∧ RaisedCode s t 2) ∧
    (s.cmd.bytes.length ≤ s.cfg.dataBytesValid → s.cmd.flag ≠ 0 → s.cmd.flag ≠ 1 →
      ∃ t, exec .encode s = .next t ∧ RaisedCode s t 3)

/-- 30 R62: the content of an encoded block, position by position: index, size, flag, payload, zero padding. -/
def Obligations.EncodedContentFollowsTheLayout : Prop :=
  ∀ (cfg : Config) (index : Half) (flag : Byte) (payload : Bytes) (pkt : Packet),
    encodeFn cfg index flag payload = .ok pkt →
      pkt.size.toInt = payload.length ∧
      ∀ j q, cpos cfg j = some q → getBit pkt.block q = .ok (layoutBit index pkt.size flag payload j)

/-- 41 R110: every encoded block is a valid codeword of `N_BITS` bits, and stripping returns the content of R101. -/
def Obligations.EncodedBlocksAreValidCodewords : Prop :=
  ∀ (cfg : Config) (index : Half) (flag : Byte) (payload : Bytes) (pkt : Packet),
    encodeFn cfg index flag payload = .ok pkt →
      pkt.block.length = cfg.dataBytes ∧ ValidCodeword pkt.block ∧
      syndrome (unpack pkt.block) = 0 ∧ totalParity (unpack pkt.block) = false ∧
      stripParity pkt.block = buildContent cfg index (BitVec.ofNat 16 payload.length) flag payload

/-- 41 R111: the parity bits of an encoded block are the classic group parities: the bit at `2^k` is the parity of the
content bits whose position has bit `k`, and position 0 is the parity of all other bits. -/
def Obligations.EncodedParityBitsAreGroupParities : Prop :=
  ∀ (cfg : Config) (index : Half) (flag : Byte) (payload : Bytes) (pkt : Packet),
    encodeFn cfg index flag payload = .ok pkt →
      (∀ k, k < cfg.kPar → getBit pkt.block (2 ^ k) =
        .ok (decide (((setPositions pkt.block).filter fun q => !isParityPos q && q.testBit k).length % 2 = 1))) ∧
      getBit pkt.block 0 = .ok (decide (((setPositions pkt.block).filter fun q => q != 0).length % 2 = 1))

/-- 41 R110, 93 G3: two distinct valid codewords differ in at least 4 positions. -/
def Obligations.DistinctCodewordsDifferInFourPositions : Prop :=
  ∀ a b : Memory, a.length = b.length → a ≠ b → ValidCodeword a → ValidCodeword b →
    4 ≤ ((List.range (8 * a.length)).filter fun p => (getBit a p).toOption != (getBit b p).toOption).length

/-- 41 R112: the empty payload with index 0 and flag 0 encodes to zero bytes; a block of `FF` bytes is a valid codeword
(where `N_BITS` is a power of two) that TOPAYLOAD rejects with `SizeOutOfRange` (5). -/
def Obligations.AllZeroAndAllOneBlocks : Prop :=
  (∀ cfg : Config, encodeFn cfg 0 0 [] =
    .ok { block := List.replicate cfg.dataBytes 0, index := 0, size := 0, fragFlag := 0 }) ∧
  (∀ (s : State) (pkt : Packet) (k : Nat), s.p = some pkt → s.cfg.nBits = 2 ^ k →
    pkt.block = List.replicate s.cfg.dataBytes 0xFF →
      ValidCodeword pkt.block ∧ ∃ t, exec .topayload s = .next t ∧ t.status.err = 5)

/-! ### PARSE -/

/-- 43 R141 (with R140, R142): PARSE loads the block as it is, with the header of the uncorrected content, or rejects a
wrong length. -/
def Obligations.ParseLoadsTheUncorrectedBlock : Prop :=
  ∀ s : State,
    (s.cmd.bytes.length = s.cfg.dataBytes → ∃ t pkt, exec .parse s = .next t ∧ t.p = some pkt ∧
      pkt.block = s.cmd.bytes ∧
      (∀ j q, j < 40 → cpos s.cfg j = some q →
        getBit s.cmd.bytes q = .ok (layoutBit pkt.index pkt.size pkt.fragFlag [] j)) ∧
      t.status = { s.status with err := 0 } ∧ KeptByCommands s t ∧
      t.rsp = some { index := some pkt.index, size := some pkt.size, flag := some pkt.fragFlag }) ∧
    (s.cmd.bytes.length ≠ s.cfg.dataBytes → ∃ t, exec .parse s = .next t ∧ RaisedCode s t 4)

/-- 43 R143: parsing an encoded block gives the packet ENCODE left in P. -/
def Obligations.ParseOfAnEncodedBlockGivesItsPacket : Prop :=
  ∀ (s : State) (pkt : Packet) (payload : Bytes), Encoded s.cfg pkt payload → s.cmd.bytes = pkt.block →
    ∃ t, exec .parse s = .next t ∧ t.p = some pkt ∧ t.status.err = 0

/-! ### SYNDROME, PARITY, SELFCORRECT -/

/-- 42 R123, R124: SYNDROME and PARITY. -/
def Obligations.CheckersReturnSyndromeAndParity : Prop :=
  ∀ s : State,
    (∀ pkt, s.p = some pkt → ∃ t, exec .syndrome s = .next t ∧
      Answered s t { value := some (Channel.xorOf (setPositions pkt.block) : Nat) }) ∧
    (∀ pkt, s.p = some pkt → ∃ t, exec .parity s = .next t ∧
      Answered s t { value := some ((setPositions pkt.block).length % 2 : Nat) }) ∧
    (s.p = none → ∃ t u, exec .syndrome s = .next t ∧ RaisedCode s t 10 ∧ exec .parity s = .next u ∧ RaisedCode s u 10)

/-- 42 R125, R126: the decision tree of SELFCORRECT, over the exclusive-or `x` of the set positions and their number. -/
def Obligations.SelfCorrectFollowsTheDecisionTree : Prop :=
  ∀ (s : State) (pkt : Packet), s.BlockWf → s.p = some pkt →
    let x := Channel.xorOf (setPositions pkt.block)
    let odd := (setPositions pkt.block).length % 2 = 1
    (x = 0 → ∃ t, exec .selfcorrect s = .next t ∧ t.p = s.p ∧ t.status = ⟨0, 0, 0⟩ ∧
      t.rsp = some { outcome := some (0, 0) } ∧ KeptByCommands s t) ∧
    (x ≠ 0 → odd → x < s.cfg.nBits → ∃ t blk, exec .selfcorrect s = .next t ∧ flipBit pkt.block x = .ok blk ∧
      t.p = some { pkt with block := blk } ∧ t.status = ⟨0, 1, x⟩ ∧ t.rsp = some { outcome := some (1, x) } ∧
      KeptByCommands s t) ∧
    (x ≠ 0 → odd → s.cfg.nBits ≤ x → ∃ t, exec .selfcorrect s = .next t ∧ RaisedCode s t 8) ∧
    (x ≠ 0 → ¬odd → ∃ t, exec .selfcorrect s = .next t ∧ t.p = s.p ∧ t.status = ⟨0, 2, 0⟩ ∧
      t.rsp = some { outcome := some (2, 0) } ∧ KeptByCommands s t)

/-- 42 R127 row 3, 95 V-P3 (as corrected by C2): one flipped bit at a position `q >= 1` of an encoded block is found and
the original block restored. -/
def Obligations.SelfCorrectRepairsASingleFlip : Prop :=
  ∀ (s : State) (pkt orig : Packet) (payload : Bytes) (q : Nat), Encoded s.cfg orig payload →
    Channel.corrupt orig.block [q] = .ok pkt.block → 1 ≤ q → s.p = some pkt →
      ∃ t, exec .selfcorrect s = .next t ∧ t.p = some { pkt with block := orig.block } ∧
        t.status = ⟨0, 1, q⟩ ∧ t.rsp = some { outcome := some (1, q) }

/-- 42 R127 row 2, C2: a flip of position 0 alone is reported as no error and not repaired, and the payload is still
returned. -/
def Obligations.GlobalParityFlipIsNotRepaired : Prop :=
  ∀ (s : State) (pkt orig : Packet) (payload : Bytes), Encoded s.cfg orig payload →
    Channel.corrupt orig.block [0] = .ok pkt.block → s.p = some pkt →
      (∃ t, exec .selfcorrect s = .next t ∧ t.p = s.p ∧ t.status = ⟨0, 0, 0⟩) ∧
      (∃ u, exec .topayload s = .next u ∧ u.p = some { orig with block := pkt.block } ∧ u.status = ⟨0, 0, 0⟩ ∧
        u.rsp = some { bytes := some payload, index := some orig.index, size := some orig.size,
                       flag := some orig.fragFlag })

/-- 42 R127 row 4, 95 V-P4: two flipped bits are always detected: SELFCORRECT reports outcome 2 and TOPAYLOAD raises
`UncorrectableError` (6), with P unchanged. -/
def Obligations.AnyDoubleFlipIsDetected : Prop :=
  ∀ (s : State) (pkt orig : Packet) (payload : Bytes) (p q : Nat), Encoded s.cfg orig payload → p ≠ q →
    Channel.corrupt orig.block [p, q] = .ok pkt.block → s.p = some pkt →
      (∃ t, exec .selfcorrect s = .next t ∧ t.p = s.p ∧ t.status = ⟨0, 2, 0⟩ ∧
        t.rsp = some { outcome := some (2, 0) }) ∧
      (∃ u, exec .topayload s = .next u ∧ u.p = s.p ∧ u.status = ⟨6, 2, 0⟩ ∧ u.rsp = some { err := 6 })

/-- 42 R127, the whole table: what SYNDROME, PARITY and SELFCORRECT answer to an encoded block with a set of flipped
positions, blind spots and miscorrections included, and with R125 d the flip that would leave the block. -/
def Obligations.FlipTableOfTheDecoder : Prop :=
  ∀ (s : State) (pkt orig : Packet) (payload : Bytes) (flips : List Nat), Encoded s.cfg orig payload → flips.Nodup →
    Channel.corrupt orig.block flips = .ok pkt.block → s.p = some pkt →
      let x := Channel.xorOf flips
      (∃ t, exec .syndrome s = .next t ∧ t.rsp = some { value := some (x : Nat) }) ∧
      (∃ t, exec .parity s = .next t ∧ t.rsp = some { value := some (flips.length % 2 : Nat) }) ∧
      (x = 0 → ∃ t, exec .selfcorrect s = .next t ∧ t.p = s.p ∧ t.status = ⟨0, 0, 0⟩) ∧
      (x ≠ 0 → flips.length % 2 = 0 → ∃ t, exec .selfcorrect s = .next t ∧ t.p = s.p ∧ t.status = ⟨0, 2, 0⟩) ∧
      (x ≠ 0 → flips.length % 2 = 1 → x < s.cfg.nBits → ∃ t pkt', exec .selfcorrect s = .next t ∧ t.p = some pkt' ∧
        t.status = ⟨0, 1, x⟩ ∧ flipBit pkt.block x = .ok pkt'.block ∧ ValidCodeword pkt'.block) ∧
      (x ≠ 0 → flips.length % 2 = 1 → s.cfg.nBits ≤ x → ∃ t, exec .selfcorrect s = .next t ∧ RaisedCode s t 8)

/-- 20 R52: SELFCORRECT is idempotent. -/
def Obligations.SelfCorrectIsIdempotent : Prop :=
  ∀ s t : State, s.BlockWf → exec .selfcorrect s = .next t → t.status.err = 0 →
    ∃ u, exec .selfcorrect t = .next u ∧ u.p = t.p ∧
      (t.status.outcome = 1 → u.status = ⟨0, 0, 0⟩) ∧ (t.status.outcome ≠ 1 → u.status = t.status)

/-- 10 R21, 20 R50: SELFCORRECT and TOPAYLOAD change at most the one bit of the block that STATUS reports as corrected,
and no byte but the one that holds it. -/
def Obligations.CorrectionChangesOnlyTheReportedBit : Prop :=
  ∀ (i : Instr) (s t : State) (pkt : Packet), i ∈ [Instr.selfcorrect, .topayload] → s.p = some pkt →
    exec i s = .next t → ∃ pkt', t.p = some pkt' ∧ pkt'.block.length = pkt.block.length ∧
      (∀ q, ¬(t.status.outcome = 1 ∧ t.status.pos = q) → getBit pkt'.block q = getBit pkt.block q) ∧
      (∀ a, ¬(t.status.outcome = 1 ∧ t.status.pos / 8 = a) → pkt'.block.byteAt a = pkt.block.byteAt a)

/-- 60 R178: where `N_BITS` is a power of two, as on the hardware, no command raises `BoundsError` (8). -/
def Obligations.NoBoundsErrorAtPowerOfTwoSizes : Prop :=
  ∀ (i : Instr) (s t : State) (k : Nat), s.BlockWf → s.cfg.nBits = 2 ^ k → exec i s = .next t → t.status.err ≠ 8

/-! ### TOPAYLOAD -/

/-- 42 R128, R131, R132: TOPAYLOAD on a block that self-corrects and whose header is in range: it returns the `size`
bytes after the header, refreshes the cache and records the outcome. -/
def Obligations.ToPayloadReturnsThePayload : Prop :=
  ∀ (s : State) (pkt : Packet) (b : Memory) (o : CorrectionOutcome) (h : Header), s.BlockWf → s.p = some pkt →
    selfCorrectFn pkt.block = .ok (b, o) → o ≠ .uncorrectableDoubleError → readHeader (stripParity b) = .ok h →
    0 ≤ h.size.toInt → h.size.toInt ≤ s.cfg.dataBytesValid → (h.fragFlag = 0 ∨ h.fragFlag = 1) →
      ∃ t payload, exec .topayload s = .next t ∧ (payload.length : Int) = h.size.toInt ∧
        (∀ m v, payload[m]? = some v → contentByte (stripParity b) (headerBytes + m) = .ok v) ∧
        t.p = some { block := b, index := h.index, size := h.size, fragFlag := h.fragFlag } ∧
        t.status = ⟨0, o.code.1, o.code.2⟩ ∧ KeptByCommands s t ∧
        t.rsp = some { bytes := some payload, index := some h.index, size := some h.size, flag := some h.fragFlag }

/-- 42 R129, R130 (with R128, R131, R132): how TOPAYLOAD fails. A flip outside the block raises `BoundsError` (8) and
an uncorrectable block `UncorrectableError` (6); then a re-read size that is negative or above `DATA_BYTES_VALID` raises
`SizeOutOfRange` (5), and then a flag outside 0 and 1 `InvalidFragFlag` (3). In the last two the block keeps the corrected
bit; the cache is never changed, and the outcome is recorded whenever there is one. -/
def Obligations.ToPayloadFailsInOrder : Prop :=
  ∀ (s : State) (pkt : Packet), s.BlockWf → s.p = some pkt →
    (∀ e, selfCorrectFn pkt.block = .error e → ∃ t, exec .topayload s = .next t ∧ RaisedCode s t 8) ∧
    (∀ b, selfCorrectFn pkt.block = .ok (b, .uncorrectableDoubleError) → ∃ t, exec .topayload s = .next t ∧
      t.p = s.p ∧ t.status = ⟨6, 2, 0⟩ ∧ t.rsp = some { err := 6 } ∧ KeptByCommands s t) ∧
    (∀ (b : Memory) (o : CorrectionOutcome) (h : Header),
      selfCorrectFn pkt.block = .ok (b, o) → o ≠ .uncorrectableDoubleError → readHeader (stripParity b) = .ok h →
      ((h.size.toInt < 0 ∨ (s.cfg.dataBytesValid : Int) < h.size.toInt) → ∃ t, exec .topayload s = .next t ∧
        t.p = some { pkt with block := b } ∧ t.status = ⟨5, o.code.1, o.code.2⟩ ∧ t.rsp = some { err := 5 } ∧
        KeptByCommands s t) ∧
      (0 ≤ h.size.toInt → h.size.toInt ≤ s.cfg.dataBytesValid → h.fragFlag ≠ 0 → h.fragFlag ≠ 1 →
        ∃ t, exec .topayload s = .next t ∧ t.p = some { pkt with block := b } ∧
          t.status = ⟨3, o.code.1, o.code.2⟩ ∧ t.rsp = some { err := 3 } ∧ KeptByCommands s t))

/-- 42 R134, 95 V-P1: TOPAYLOAD after ENCODE returns the payload and the header that were encoded. -/
def Obligations.ToPayloadInvertsEncode : Prop :=
  ∀ s : State, s.cmd.bytes.length ≤ s.cfg.dataBytesValid → (s.cmd.flag = 0 ∨ s.cmd.flag = 1) →
    ∃ t u, exec .encode s = .next t ∧ exec .topayload t = .next u ∧ u.p = t.p ∧ u.status = ⟨0, 0, 0⟩ ∧
      ∃ size : Half, size.toInt = s.cmd.bytes.length ∧
        u.rsp = some { bytes := some s.cmd.bytes, index := some s.cmd.index, size := some size,
                       flag := some s.cmd.flag }

/-- 42 R134: the same through PARSE after any single bit flip of the block. -/
def Obligations.RoundTripSurvivesOneFlip : Prop :=
  ∀ (s : State) (orig : Packet) (payload : Bytes) (q : Nat), Encoded s.cfg orig payload →
    Channel.corrupt orig.block [q] = .ok s.cmd.bytes →
      ∃ t u, exec .parse s = .next t ∧ exec .topayload t = .next u ∧
        u.status = (if q = 0 then ⟨0, 0, 0⟩ else ⟨0, 1, q⟩) ∧
        u.rsp = some { bytes := some payload, index := some orig.index, size := some orig.size,
                       flag := some orig.fragFlag }

/-- 42 R133: content bits after the payload are not read: two blocks without detected error whose content agrees up to
the payload's end get the same response. -/
def Obligations.PaddingIsNotRead : Prop :=
  ∀ (s1 s2 : State) (pkt1 pkt2 : Packet) (h : Header), s1.cfg = s2.cfg → s1.BlockWf → s2.BlockWf →
    s1.p = some pkt1 → s2.p = some pkt2 →
    Channel.xorOf (setPositions pkt1.block) = 0 → Channel.xorOf (setPositions pkt2.block) = 0 →
    readHeader (stripParity pkt1.block) = .ok h →
    (stripParity pkt1.block).take (40 + 8 * h.size.toNat) = (stripParity pkt2.block).take (40 + 8 * h.size.toNat) →
      ∃ t1 t2, exec .topayload s1 = .next t1 ∧ exec .topayload s2 = .next t2 ∧ t1.rsp = t2.rsp ∧
        t1.status = t2.status

/-- 10 R34 (and R33): after a successful TOPAYLOAD or JOIN the cached size and flag are in range; and after every command
that succeeds in loading or decoding a packet the cache agrees with the header bits of the block. -/
def Obligations.SuccessfulDecodeLeavesHeaderInRange : Prop :=
  ∀ (i : Instr) (s t : State) (pkt : Packet), s.BlockWf → exec i s = .next t → t.status.err = 0 → t.p = some pkt →
    (i ∈ [Instr.topayload, .join] → 0 ≤ pkt.size.toInt ∧ pkt.size.toInt ≤ t.cfg.dataBytesValid ∧
      (pkt.fragFlag = 0 ∨ pkt.fragFlag = 1)) ∧
    (i ∈ [Instr.encode, .parse, .topayload, .split, .join] →
      readHeader (stripParity pkt.block) = .ok { index := pkt.index, size := pkt.size, fragFlag := pkt.fragFlag })

/-! ### SPLIT -/

/-- 44 R154 (with R151 to R153): SPLIT encodes one chunk per block, in ascending index, the last one flagged, leaves the
last packet in P and OUTCOME and POS untouched; with more than 32768 chunks it raises `IndexOverflow` (11). -/
def Obligations.SplitEncodesEachChunk : Prop :=
  ∀ s : State,
    let V := s.cfg.dataBytesValid
    let n := max 1 ((s.cmd.bytes.length + V - 1) / V)
    (n ≤ 32768 → ∃ t blocks, exec .split s = .next t ∧ t.rsp = some { blocks := some blocks } ∧ blocks.length = n ∧
      (∀ i, i < n → ∃ pkt,
        encodeFn s.cfg (BitVec.ofNat 16 i) (if i + 1 = n then 1 else 0) ((s.cmd.bytes.drop (i * V)).take V) = .ok pkt ∧
        blocks[i]? = some pkt.block ∧ (i + 1 = n → t.p = some pkt)) ∧
      t.status = { s.status with err := 0 } ∧ KeptByCommands s t) ∧
    (32768 < n → ∃ t, exec .split s = .next t ∧ RaisedCode s t 11)

/-- 44 R151: the chunks concatenated in order are the payload; all but the last have `DATA_BYTES_VALID` bytes. -/
def Obligations.ChunksConcatenateToThePayload : Prop :=
  ∀ (cfg : Config) (payload : Bytes),
    let V := cfg.dataBytesValid
    let n := chunkCount cfg payload.length
    1 ≤ n ∧ (List.range n).flatMap (chunk cfg payload) = payload ∧
      (∀ i, i + 1 < n → (chunk cfg payload i).length = V) ∧
      (chunk cfg payload (n - 1)).length = payload.length - (n - 1) * V ∧
      (1 ≤ payload.length → (n - 1) * V < payload.length ∧ payload.length ≤ n * V) ∧ (payload.length = 0 → n = 1)

/-- 44 R155: exactly the highest-indexed packet is flagged; the boundary sizes; each block depends only on its index, the
number of chunks and its chunk. -/
def Obligations.SplitMakesAFragmentSequence : Prop :=
  ∀ (cfg : Config) (payload : Bytes) (pkts : List Packet), splitFn cfg payload = .ok pkts →
    (∀ (i : Nat) (pkt : Packet), pkts[i]? = some pkt → pkt.index.toInt = i ∧ (pkt.fragFlag = 1 ↔ i + 1 = pkts.length) ∧
      (pkt.fragFlag = 0 ↔ i + 1 < pkts.length) ∧ pkt.size.toInt = (chunk cfg payload i).length) ∧
    (payload.length = 0 → pkts.length = 1) ∧ (payload.length = cfg.dataBytesValid → pkts.length = 1) ∧
    (payload.length = cfg.dataBytesValid + 1 → pkts.length = 2) ∧
    (∀ (payload' : Bytes) (pkts' : List Packet) (i : Nat), splitFn cfg payload' = .ok pkts' → pkts'.length = pkts.length →
      chunk cfg payload' i = chunk cfg payload i → pkts'[i]? = pkts[i]?)

/-! ### JOIN -/

/-- 44 R159: JOIN is equivalent to a host issuing PARSE and TOPAYLOAD per block with the index and flag tests of R156 in
between: the same P, STATUS, error and payload, on success and on every failure. -/
def Obligations.JoinEqualsIssuingParseAndToPayload : Prop :=
  ∀ s : State, ∃ t, exec .join s = .next t ∧
    let r := hostJoin 0 [] s.cmd.blocks s
    t.p = r.1.p ∧ t.status.outcome = r.1.status.outcome ∧ t.status.pos = r.1.status.pos ∧
      t.status.err = r.2.1 ∧ t.rsp = some { err := r.2.1, bytes := r.2.2 } ∧ KeptByCommands s t

/-- 44 R156, R157, R161, R162, R163: JOIN of the encoded blocks of a fragment sequence, each with at most one flipped bit,
returns the payloads concatenated, whatever follows the final block, and leaves the last header in P. -/
def Obligations.JoinReassemblesAFragmentSequence : Prop :=
  ∀ (s : State) (frags : List (Packet × Bytes)) (blocks extra : List Bytes) (last : Packet × Bytes),
    frags.getLast? = some last →
    (∀ (k : Nat) (f : Packet × Bytes), frags[k]? = some f → Encoded s.cfg f.1 f.2 ∧ f.1.index.toInt = k ∧
      f.1.fragFlag = if k + 1 = frags.length then 1 else 0) →
    List.Forall₂ (fun f blk => AtMostOneFlip f.1.block blk) frags blocks →
    s.cmd.blocks = blocks ++ extra →
      ∃ t, exec .join s = .next t ∧ t.status.err = 0 ∧ t.rsp = some { bytes := some (frags.flatMap (·.2)) } ∧
        t.cache = some (last.1.index, last.1.size, last.1.fragFlag) ∧ KeptByCommands s t

/-- 44 R161, 95 V-P5: JOIN of what SPLIT returned is the payload, also when each block has suffered at most one bit flip
in between. -/
def Obligations.JoinInvertsSplit : Prop :=
  ∀ (s s' t : State) (blocks blocks' extra : List Bytes), s'.cfg = s.cfg → exec .split s = .next t →
    t.rsp = some { blocks := some blocks } → List.Forall₂ AtMostOneFlip blocks blocks' →
    s'.cmd.blocks = blocks' ++ extra →
      ∃ u, exec .join s' = .next u ∧ u.status.err = 0 ∧ u.rsp = some { bytes := some s.cmd.bytes }

/-- 44 R162: blocks listed after the final fragment are not looked at. -/
def Obligations.JoinIgnoresBlocksAfterTheFinalOne : Prop :=
  ∀ (s t : State) (blocks extra : List Bytes), exec .join (s.withBlocks blocks) = .next t → t.status.err = 0 →
    ∃ u, exec .join (s.withBlocks (blocks ++ extra)) = .next u ∧ u.p = t.p ∧ u.status = t.status ∧ u.rsp = t.rsp

/-- 44 R158: after well-formed unflagged fragments, `MissingFragment` (7) is raised when the list ends (also when it is
empty), and when the next decoded index is not the expected one; then P holds that packet, cache refreshed (R159). -/
def Obligations.JoinRaisesMissingFragment : Prop :=
  ∀ (s : State) (frags : List (Packet × Bytes)),
    (∀ (k : Nat) (f : Packet × Bytes), frags[k]? = some f → Encoded s.cfg f.1 f.2 ∧ f.1.index.toInt = k ∧ f.1.fragFlag = 0) →
    (s.cmd.blocks = frags.map (·.1.block) →
      ∃ t, exec .join s = .next t ∧ t.status.err = 7 ∧ t.rsp = some { err := 7 } ∧ (frags = [] → t.p = s.p)) ∧
    (∀ (bad : Packet) (payload : Bytes) (rest : List Bytes), Encoded s.cfg bad payload →
      bad.index.toInt ≠ frags.length → s.cmd.blocks = frags.map (·.1.block) ++ bad.block :: rest →
      ∃ t, exec .join s = .next t ∧ t.status.err = 7 ∧ t.rsp = some { err := 7 } ∧ t.p = some bad)

/-! ### The whole machine -/

/-- The invariant of a unit (10 R21, R28, R29, 60 R170) is kept by every step from every state that meets it. -/
def Obligations.StepKeepsTheInvariant : Prop :=
  ∀ s t : State, s.Inv → step s = .next t → t.Inv

/-- The invariant holds after reset. That the response port is absent there is the model's choice (log entry 5). -/
def Obligations.ResetMeetsTheInvariant : Prop := State.reset.Inv

/-- 10 R32, 70 R201: no command changes the configuration. That the command port keeps its operands (log entry 5) and
that the list of the host's further actions is kept (log entry 3) is the model's choice of how to hold the port of 10 R29
and the host of 70 R213 b; no rule says it. -/
def Obligations.CommandsKeepConfigurationAndOperands : Prop :=
  ∀ (i : Instr) (s t : State), exec i s = .next t → KeptByCommands s t

/-- 10 R30, R25: which commands leave P, its header cache, and OUTCOME and POS untouched; and `P.valid`, once 1, is
cleared by no command. -/
def Obligations.RegistersChangeOnlyAsTheAccessTableSays : Prop :=
  ∀ (i : Instr) (s t : State), exec i s = .next t →
    (i ∈ [Instr.byte2bits, .bits2byte, .int16tobytes, .bytestoint16, .int32tobytes, .bytestoint32, .syndrome, .parity] →
      t.p = s.p) ∧
    (i ∈ [Instr.encode, .parse, .split] → t.status.err ≠ 0 → t.p = s.p) ∧
    (i ∈ [Instr.encode, .parse, .split, .join] → t.status.err = 0 → t.p.isSome) ∧
    (i ∉ [Instr.selfcorrect, .topayload, .join] →
      t.status.outcome = s.status.outcome ∧ t.status.pos = s.status.pos) ∧
    (i = .selfcorrect → t.cache = s.cache) ∧
    (i = .topayload → t.status.err ≠ 0 → t.cache = s.cache) ∧
    (s.p.isSome → t.p.isSome)

/-- 10 R27: every command, the illegal ones included, writes STATUS.ERR, equal to `rsp.err`, whatever it held before. -/
def Obligations.EveryCommandWritesErr : Prop :=
  ∀ (s t : State) (c : Command) (rest : List HostAction), s.pending = .command c :: rest → step s = .next t →
    (∃ r, t.rsp = some r ∧ r.err = t.status.err ∧ (r.err ≠ 0 → r = { err := r.err })) ∧
    (∀ e, step { s with status := { s.status with err := e } } = .next t)

/-- 60 R170: the codes of the errors, and that each command reports success or one of the errors of its row. -/
def Obligations.CommandsRaiseOnlyTheirErrors : Prop :=
  [Err.lengthError, .payloadTooLarge, .invalidFragFlag, .invalidBlockSize, .sizeOutOfRange, .uncorrectableError,
    .missingFragment, .boundsError, .illegalCommand, .noPacket, .indexOverflow].map Err.code =
      [1, 2, 3, 4, 5, 6, 7, 8, 9, 10, 11] ∧
  ∀ (i : Instr) (s t : State), s.BlockWf → exec i s = .next t → t.status.err = 0 ∨ t.status.err ∈ errorsOf i

/-- 10 R29: the ports hold no state between commands: a step does not depend on what they last held. -/
def Obligations.PortsHoldNoStateBetweenCommands : Prop :=
  ∀ (s : State) (c : Command) (r : Option Response), step { s with cmd := c, rsp := r } = step s

/-- 10 R29: operand fields a command does not use are ignored. -/
def Obligations.UnusedOperandFieldsAreIgnored : Prop :=
  ∀ (i : Instr) (s : State) (c d : Command), SameOperands i c d →
    ∃ t, exec i { s with cmd := c } = .next t ∧ exec i { s with cmd := d } = .next { t with cmd := d }

/-- 70 R215: every finite list of commands and resets gives a finite run that ends with nothing pending. -/
def Obligations.EveryFiniteRunFinishes : Prop :=
  ∀ s : State, ∃ t : State, Host.Core.run Sys2Proof.core s.pending.length s = .next t ∧ t.pending = []

/-- 60 R188, 20 R56: units share nothing: a step of unit `j` leaves every other unit as it was, makes unit `j` what it
makes it alone, and steps of two units commute. -/
def Obligations.UnitsShareNothing : Prop :=
  ∀ (sys sys1 : System) (j k : Nat), j ≠ k → System.stepUnit sys j = .next sys1 →
    sys1[k]? = sys[k]? ∧ sys1.length = sys.length ∧
    (∃ s s', sys[j]? = some s ∧ step s = .next s' ∧ sys1[j]? = some s') ∧
    (∀ sys2, System.stepUnit sys k = .next sys2 →
      ∃ sys3, System.stepUnit sys1 k = .next sys3 ∧ System.stepUnit sys2 j = .next sys3)
end

