-- ==== Sys2Proof/Laws/State.lean ====
section
/-! SUPPORT. One lemma per field per update of State and Status, and the inversion lemmas of the shared operations that
end a command. -/

namespace Sys2Proof.Machine

@[simp] theorem Status.setErr_err (st : Status) (e : BitVec 8) : (st.setErr e).err = e := rfl

@[simp] theorem Status.setErr_outcome (st : Status) (e : BitVec 8) : (st.setErr e).outcome = st.outcome := rfl

@[simp] theorem Status.setErr_pos (st : Status) (e : BitVec 8) : (st.setErr e).pos = st.pos := rfl

@[simp] theorem Status.setOutcome_err (st : Status) (o : CorrectionOutcome) : (st.setOutcome o).err = st.err := rfl

@[simp] theorem Status.setOutcome_outcome (st : Status) (o : CorrectionOutcome) : (st.setOutcome o).outcome = o.code.1 := rfl

@[simp] theorem Status.setOutcome_pos (st : Status) (o : CorrectionOutcome) : (st.setOutcome o).pos = o.code.2 := rfl


@[simp] theorem State.load_cfg (s : State) (pkt : Packet) : (s.load pkt).cfg = s.cfg := rfl

@[simp] theorem State.load_p (s : State) (pkt : Packet) : (s.load pkt).p = some pkt := rfl

@[simp] theorem State.load_status (s : State) (pkt : Packet) : (s.load pkt).status = s.status := rfl

@[simp] theorem State.load_cmd (s : State) (pkt : Packet) : (s.load pkt).cmd = s.cmd := rfl

@[simp] theorem State.load_rsp (s : State) (pkt : Packet) : (s.load pkt).rsp = s.rsp := rfl

@[simp] theorem State.load_pending (s : State) (pkt : Packet) : (s.load pkt).pending = s.pending := rfl


@[simp] theorem State.recordOutcome_cfg (s : State) (o : CorrectionOutcome) : (s.recordOutcome o).cfg = s.cfg := rfl

@[simp] theorem State.recordOutcome_p (s : State) (o : CorrectionOutcome) : (s.recordOutcome o).p = s.p := rfl

@[simp] theorem State.recordOutcome_status (s : State) (o : CorrectionOutcome) : (s.recordOutcome o).status = s.status.setOutcome o := rfl

@[simp] theorem State.recordOutcome_cmd (s : State) (o : CorrectionOutcome) : (s.recordOutcome o).cmd = s.cmd := rfl

@[simp] theorem State.recordOutcome_rsp (s : State) (o : CorrectionOutcome) : (s.recordOutcome o).rsp = s.rsp := rfl

@[simp] theorem State.recordOutcome_pending (s : State) (o : CorrectionOutcome) : (s.recordOutcome o).pending = s.pending := rfl


@[simp] theorem State.respond_cfg (s : State) (r : Response) : (s.respond r).cfg = s.cfg := rfl

@[simp] theorem State.respond_p (s : State) (r : Response) : (s.respond r).p = s.p := rfl

@[simp] theorem State.respond_status (s : State) (r : Response) : (s.respond r).status = s.status.setErr 0 := rfl

@[simp] theorem State.respond_cmd (s : State) (r : Response) : (s.respond r).cmd = s.cmd := rfl

@[simp] theorem State.respond_rsp (s : State) (r : Response) : (s.respond r).rsp = some { r with err := 0 } := rfl

@[simp] theorem State.respond_pending (s : State) (r : Response) : (s.respond r).pending = s.pending := rfl


@[simp] theorem State.raise_cfg (s : State) (e : Err) : (s.raise e).cfg = s.cfg := rfl

@[simp] theorem State.raise_p (s : State) (e : Err) : (s.raise e).p = s.p := rfl

@[simp] theorem State.raise_status (s : State) (e : Err) : (s.raise e).status = s.status.setErr e.code := rfl

@[simp] theorem State.raise_cmd (s : State) (e : Err) : (s.raise e).cmd = s.cmd := rfl

@[simp] theorem State.raise_rsp (s : State) (e : Err) : (s.raise e).rsp = some { err := e.code } := rfl

@[simp] theorem State.raise_pending (s : State) (e : Err) : (s.raise e).pending = s.pending := rfl


@[simp] theorem State.present_cfg (s : State) (c : Command) (rest : List HostAction) : (s.present c rest).cfg = s.cfg := rfl

@[simp] theorem State.present_p (s : State) (c : Command) (rest : List HostAction) : (s.present c rest).p = s.p := rfl

@[simp] theorem State.present_status (s : State) (c : Command) (rest : List HostAction) : (s.present c rest).status = s.status := rfl

@[simp] theorem State.present_cmd (s : State) (c : Command) (rest : List HostAction) : (s.present c rest).cmd = c := rfl

@[simp] theorem State.present_rsp (s : State) (c : Command) (rest : List HostAction) : (s.present c rest).rsp = s.rsp := rfl

@[simp] theorem State.present_pending (s : State) (c : Command) (rest : List HostAction) : (s.present c rest).pending = rest := rfl


@[simp] theorem State.applyReset_cfg (s : State) (rest : List HostAction) : (s.applyReset rest).cfg = s.cfg := rfl

@[simp] theorem State.applyReset_p (s : State) (rest : List HostAction) : (s.applyReset rest).p = none := rfl

@[simp] theorem State.applyReset_status (s : State) (rest : List HostAction) : (s.applyReset rest).status = Status.reset := rfl

@[simp] theorem State.applyReset_cmd (s : State) (rest : List HostAction) : (s.applyReset rest).cmd = Command.idle := rfl

@[simp] theorem State.applyReset_rsp (s : State) (rest : List HostAction) : (s.applyReset rest).rsp = none := rfl

@[simp] theorem State.applyReset_pending (s : State) (rest : List HostAction) : (s.applyReset rest).pending = rest := rfl


/-- What a command that only computes a response can leave. -/
theorem State.finish_cases (s : State) (r : Except Err Response) :
    (∃ rsp, r = .ok rsp ∧ s.finish r = s.respond rsp) ∨ (∃ e, r = .error e ∧ s.finish r = s.raise e) := by
  cases r with
  | ok rsp => exact .inl ⟨rsp, rfl, rfl⟩
  | error e => exact .inr ⟨e, rfl, rfl⟩

@[simp] theorem State.finish_ok (s : State) (r : Response) : s.finish (.ok r) = s.respond r := rfl

@[simp] theorem State.finish_error (s : State) (e : Err) : s.finish (.error e) = s.raise e := rfl

/-- What a command that needs a packet can leave. -/
theorem State.withPacket_cases (s : State) (f : Packet → State) :
    (∃ pkt, s.p = some pkt ∧ s.withPacket f = f pkt) ∨ (s.p = none ∧ s.withPacket f = s.raise .noPacket) := by
  unfold State.withPacket
  cases h : s.p with
  | none => exact .inr ⟨rfl, rfl⟩
  | some pkt => exact .inl ⟨pkt, rfl, rfl⟩

/-- Every error code is between 1 and 11. -/
theorem Err.code_bounds (e : Err) : e.code ≠ 0 ∧ e.code.toNat ≤ 11 := by
  cases e <;> decide

/-- Distinct errors have distinct codes. -/
theorem Err.code_injective {e e' : Err} (h : e.code = e'.code) : e = e' := by
  revert h; cases e <;> cases e' <;> decide

/-- OUTCOME is never 3, and POS is 0 unless OUTCOME is 1. -/
theorem CorrectionOutcome.code_cases (o : CorrectionOutcome) :
    o.code.1 ≠ 3 ∧ (o.code.1 ≠ 1 → o.code.2 = 0) ∧ (o.code.1 = 1 → o = .corrected o.code.2) := by
  cases o <;> simp [CorrectionOutcome.code]

end Sys2Proof.Machine
end

