-- ==== Sys2Proof/Laws/Bits.lean ====
section
/-! SUPPORT. Bits in bytes, packing, and bit access to a block: one lemma per operation of 20_memory.md and of the
conversions of 40_bit_byte_utilities.md. -/

namespace Sys2Proof.Machine

@[simp] theorem byteToBits_length (b : Byte) : (byteToBits b).length = 8 := by simp [byteToBits]

theorem byteToBits_getElem? (b : Byte) (t : Nat) :
    (byteToBits b)[t]? = if t < 8 then some (b.getLsbD (7 - t)) else none := by
  simp only [byteToBits, List.getElem?_map]
  split <;> simp_all

theorem byteToBits_eq (b : Byte) : byteToBits b =
    [b.getLsbD 7, b.getLsbD 6, b.getLsbD 5, b.getLsbD 4, b.getLsbD 3, b.getLsbD 2, b.getLsbD 1, b.getLsbD 0] := rfl

/-- The value of eight bits, most significant first, as a byte. -/
theorem getLsbD_bitsValue (b7 b6 b5 b4 b3 b2 b1 b0 : Bit) (k : Nat) (hk : k < 8) :
    (BitVec.ofNat 8 (bitsValue [b7, b6, b5, b4, b3, b2, b1, b0])).getLsbD (7 - k)
      = [b7, b6, b5, b4, b3, b2, b1, b0].getD k false := by
  have : k = 0 ∨ k = 1 ∨ k = 2 ∨ k = 3 ∨ k = 4 ∨ k = 5 ∨ k = 6 ∨ k = 7 := by omega
  revert b7 b6 b5 b4 b3 b2 b1 b0
  rcases this with rfl | rfl | rfl | rfl | rfl | rfl | rfl | rfl <;> decide

theorem byteToBits_bitsValue (b7 b6 b5 b4 b3 b2 b1 b0 : Bit) :
    byteToBits (BitVec.ofNat 8 (bitsValue [b7, b6, b5, b4, b3, b2, b1, b0])) = [b7, b6, b5, b4, b3, b2, b1, b0] := by
  revert b7 b6 b5 b4 b3 b2 b1 b0; decide

theorem bitsValue_byteToBits (b : Byte) : BitVec.ofNat 8 (bitsValue (byteToBits b)) = b := by
  apply BitVec.eq_of_getLsbD_eq
  intro i hi
  have h := getLsbD_bitsValue (b.getLsbD 7) (b.getLsbD 6) (b.getLsbD 5) (b.getLsbD 4) (b.getLsbD 3) (b.getLsbD 2)
    (b.getLsbD 1) (b.getLsbD 0) (7 - i) (by omega)
  rw [show 7 - (7 - i) = i by omega] at h
  rw [byteToBits_eq, h]
  have : i = 0 ∨ i = 1 ∨ i = 2 ∨ i = 3 ∨ i = 4 ∨ i = 5 ∨ i = 6 ∨ i = 7 := by omega
  rcases this with rfl | rfl | rfl | rfl | rfl | rfl | rfl | rfl <;> rfl

@[simp] theorem bitsToByte_byteToBits (b : Byte) : bitsToByte (byteToBits b) = .ok b := by
  simp [bitsToByte, bitsValue_byteToBits]

@[simp] theorem unpack_nil : unpack [] = [] := rfl

@[simp] theorem unpack_cons (b : Byte) (blk : Bytes) : unpack (b :: blk) = byteToBits b ++ unpack blk := rfl

@[simp] theorem unpack_append (a b : Bytes) : unpack (a ++ b) = unpack a ++ unpack b := by
  simp [unpack]

@[simp] theorem unpack_length (blk : Bytes) : (unpack blk).length = 8 * blk.length := by
  induction blk with
  | nil => rfl
  | cons b blk ih => simp [ih]; omega

theorem unpack_replicate_zero (n : Nat) : unpack (List.replicate n 0#8) = List.replicate (8 * n) false := by
  induction n with
  | zero => rfl
  | succ n ih =>
    rw [List.replicate_succ, unpack_cons, ih, show 8 * (n + 1) = 8 + 8 * n by omega, ← List.replicate_append_replicate]
    rfl

/-- Position `p` of a block is bit `7 - p mod 8` of byte `p div 8` (R44). -/
theorem unpack_getElem? (blk : Bytes) (p : Nat) :
    (unpack blk)[p]? = (blk[p / 8]?).map fun b => b.getLsbD (7 - p % 8) := by
  induction blk generalizing p with
  | nil => simp
  | cons b blk ih =>
    rw [unpack_cons]
    by_cases hp : p < 8
    · rw [List.getElem?_append_left (by simpa using hp), byteToBits_getElem?]
      simp [hp, Nat.div_eq_of_lt hp, Nat.mod_eq_of_lt hp]
    · rw [List.getElem?_append_right (by simpa using hp), byteToBits_length, ih]
      have h1 : p / 8 = (p - 8) / 8 + 1 := by omega
      have h2 : p % 8 = (p - 8) % 8 := by omega
      rw [h1, h2]; simp

/-- `getBit` reads the codeword (R41, R44). -/
theorem getBit_eq (blk : Memory) (p : Nat) :
    getBit blk p = match (unpack blk)[p]? with | some v => .ok v | none => .error .boundsError := by
  unfold getBit Memory.byteAt
  rw [unpack_getElem?]
  cases blk[p / 8]? <;> rfl

theorem getBit_ok {blk : Memory} {p : Nat} (hp : p < 8 * blk.length) :
    getBit blk p = .ok ((unpack blk)[p]'(by simpa using hp)) := by
  rw [getBit_eq, List.getElem?_eq_getElem (by simpa using hp)]

/-- Outside the block `getBit` raises `BoundsError` (R41). -/
theorem getBit_error {blk : Memory} {p : Nat} (hp : 8 * blk.length ≤ p) : getBit blk p = .error .boundsError := by
  rw [getBit_eq, List.getElem?_eq_none (by simpa using hp)]

theorem Byte.withBit_getLsbD (b : Byte) (k j : Nat) (v : Bit) (hk : k < 8) (hj : j < 8) :
    (Byte.withBit b k v).getLsbD j = if j = k then v else b.getLsbD j := by
  unfold Byte.withBit
  have hone : ((1#8 <<< k) : Byte).getLsbD j = decide (j = k) := by
    have h1 : j = 0 ∨ j = 1 ∨ j = 2 ∨ j = 3 ∨ j = 4 ∨ j = 5 ∨ j = 6 ∨ j = 7 := by omega
    have h2 : k = 0 ∨ k = 1 ∨ k = 2 ∨ k = 3 ∨ k = 4 ∨ k = 5 ∨ k = 6 ∨ k = 7 := by omega
    rcases h1 with rfl | rfl | rfl | rfl | rfl | rfl | rfl | rfl <;>
      rcases h2 with rfl | rfl | rfl | rfl | rfl | rfl | rfl | rfl <;> rfl
  cases v
  · rw [if_neg (by simp), BitVec.getLsbD_and, BitVec.getLsbD_not, hone]
    by_cases h : j = k <;> simp [h, hj]
  · rw [if_pos rfl, BitVec.getLsbD_or, hone]
    by_cases h : j = k <;> simp [h]

/-- `setBit` writes one position of the codeword and nothing else (R42). -/
theorem setBit_ok {blk : Memory} {p : Nat} (hp : p < 8 * blk.length) (v : Bit) :
    ∃ blk', setBit blk p v = .ok blk' ∧ blk'.length = blk.length ∧ unpack blk' = (unpack blk).set p v := by
  have hlt : p / 8 < blk.length := by omega
  refine ⟨blk.set (p / 8) (Byte.withBit blk[p / 8] (7 - p % 8) v), ?_, by simp, ?_⟩
  · simp [setBit, Memory.byteAt, hlt]
  · apply List.ext_getElem?
    intro q
    rw [unpack_getElem?, List.getElem?_set, List.getElem?_set, unpack_getElem?]
    by_cases hq : p = q
    · subst hq
      simp [hlt, hp]
      rw [Byte.withBit_getLsbD _ _ _ _ (by omega) (by omega)]; simp
    · by_cases hb : p / 8 = q / 8
      · have hne : ¬ (7 - q % 8 = 7 - p % 8) := by omega
        have hlt' : q / 8 < blk.length := by omega
        simp only [hb, hq, hlt', if_true, if_false]
        simp [hlt', Byte.withBit_getLsbD _ _ _ v (show 7 - p % 8 < 8 by omega) (show 7 - q % 8 < 8 by omega), hne]
      · simp [hb, hq]

/-- `flipBit` inverts one position of the codeword and nothing else (R43). -/
theorem flipBit_ok {blk : Memory} {p : Nat} (hp : p < 8 * blk.length) :
    ∃ blk', flipBit blk p = .ok blk' ∧ blk'.length = blk.length ∧
      unpack blk' = (unpack blk).set p (!(unpack blk)[p]'(by simpa using hp)) := by
  obtain ⟨blk', h, hlen, hun⟩ := setBit_ok hp (!(unpack blk)[p]'(by simpa using hp))
  exact ⟨blk', by simp [flipBit, getBit_ok hp, h], hlen, hun⟩

/-- Outside the block `flipBit` raises `BoundsError` and changes nothing (R43). -/
theorem flipBit_error {blk : Memory} {p : Nat} (hp : 8 * blk.length ≤ p) : flipBit blk p = .error .boundsError := by
  simp [flipBit, getBit_error hp]

/-- What a successful `flipBit` says. -/
theorem flipBit_inv {blk blk' : Memory} {p : Nat} (h : flipBit blk p = .ok blk') :
    ∃ hp : p < (unpack blk).length, blk'.length = blk.length ∧ unpack blk' = (unpack blk).set p (!(unpack blk)[p]) := by
  by_cases hp : p < 8 * blk.length
  · obtain ⟨b, hb, hlen, hun⟩ := flipBit_ok hp
    rw [h] at hb
    cases hb
    exact ⟨by simpa using hp, hlen, hun⟩
  · rw [flipBit_error (by omega)] at h; cases h

@[simp] theorem pack_unpack (blk : Bytes) : pack (unpack blk) = blk := by
  induction blk with
  | nil => rfl
  | cons b blk ih =>
    rw [unpack_cons, byteToBits_eq]
    simp only [List.cons_append, List.nil_append, pack, ih]
    rw [← byteToBits_eq, bitsValue_byteToBits]

/-- Packing and unpacking a whole number of bytes gives the bits back (R44). -/
theorem unpack_pack (n : Nat) (cw : Bits) (h : cw.length = 8 * n) : unpack (pack cw) = cw := by
  induction n generalizing cw with
  | zero => have : cw = [] := List.length_eq_zero_iff.mp (by omega); subst this; rfl
  | succ n ih =>
    match cw, h with
    | b7 :: b6 :: b5 :: b4 :: b3 :: b2 :: b1 :: b0 :: rest, h =>
      simp only [pack, unpack_cons, byteToBits_bitsValue]
      rw [ih rest (by simp at h; omega)]; rfl

theorem pack_length (n : Nat) (cw : Bits) (h : cw.length = 8 * n) : (pack cw).length = n := by
  have := congrArg List.length (unpack_pack n cw h)
  simp at this; omega

/-- Two blocks with the same codeword are equal. -/
theorem unpack_injective {a b : Bytes} (h : unpack a = unpack b) : a = b := by
  rw [← pack_unpack a, h, pack_unpack]

end Sys2Proof.Machine
end

