-- ==== Sys2Proof/Laws/Codeword.lean ====
section
/-! SUPPORT. The codeword functions: how syndrome, parity and content answer to a change of one bit, and what each step
of the encoder leaves (41_hamming_encode.md R101 to R107, 42_decode_correct.md R121). -/

namespace Sys2Proof.Machine

/-! ### Syndrome and parity under a change of one bit -/

theorem syndromeFrom_set (cw : Bits) (p q : Nat) (v : Bit) (hq : q < cw.length) :
    syndromeFrom p (cw.set q v) = syndromeFrom p cw ^^^ (if cw[q] ^^ v then p + q else 0) := by
  induction cw generalizing p q with
  | nil => simp at hq
  | cons b rest ih =>
    cases q with
    | zero =>
      simp only [List.set_cons_zero, syndromeFrom, List.getElem_cons_zero, Nat.add_zero]
      cases b <;> cases v <;> simp [Nat.xor_comm]
    | succ q =>
      simp only [List.set_cons_succ, syndromeFrom, List.getElem_cons_succ]
      rw [ih (p + 1) q (by simpa using hq), ← Nat.xor_assoc, show p + 1 + q = p + (q + 1) by omega]

/-- Inverting position `q` changes the syndrome by `q`. -/
theorem syndrome_flip (cw : Bits) (q : Nat) (hq : q < cw.length) :
    syndrome (cw.set q (!cw[q])) = syndrome cw ^^^ q := by
  rw [syndrome, syndromeFrom_set cw 0 q _ hq]
  simp [syndrome]

theorem totalParity_set (cw : Bits) (q : Nat) (v : Bit) (hq : q < cw.length) :
    totalParity (cw.set q v) = (totalParity cw ^^ (cw[q] ^^ v)) := by
  induction cw generalizing q with
  | nil => simp at hq
  | cons b rest ih =>
    cases q with
    | zero => simp [totalParity]; cases b <;> cases v <;> cases totalParity rest <;> rfl
    | succ q =>
      simp only [List.set_cons_succ, totalParity, List.getElem_cons_succ]
      rw [ih q (by simpa using hq), Bool.xor_assoc]

/-- Inverting any position changes the total parity. -/
theorem totalParity_flip (cw : Bits) (q : Nat) (hq : q < cw.length) :
    totalParity (cw.set q (!cw[q])) = !totalParity cw := by
  rw [totalParity_set cw q _ hq]; simp

theorem syndromeFrom_lt (cw : Bits) (p k : Nat) (h : p + cw.length ≤ 2 ^ k) : syndromeFrom p cw < 2 ^ k := by
  induction cw generalizing p with
  | nil => exact Nat.two_pow_pos k
  | cons b rest ih =>
    simp only [List.length_cons] at h
    refine Nat.xor_lt_two_pow ?_ (ih (p + 1) (by omega))
    split <;> omega

/-- A syndrome is below every power of two that bounds the positions (R103). -/
theorem syndrome_lt (cw : Bits) (k : Nat) (h : cw.length ≤ 2 ^ k) : syndrome cw < 2 ^ k :=
  syndromeFrom_lt cw 0 k (by omega)

@[simp] theorem syndromeFrom_replicate_false (n p : Nat) : syndromeFrom p (List.replicate n false) = 0 := by
  induction n generalizing p with
  | zero => rfl
  | succ n ih => simp [List.replicate_succ, syndromeFrom, ih]

@[simp] theorem totalParity_replicate_false (n : Nat) : totalParity (List.replicate n false) = false := by
  induction n with
  | zero => rfl
  | succ n ih => simp [List.replicate_succ, totalParity, ih]

/-! ### Parity positions -/

theorem isParityPos_two_pow (k : Nat) : isParityPos (2 ^ k) = true := by
  have : 2 ^ k &&& (2 ^ k - 1) = 0 := by rw [Nat.and_two_pow_sub_one_eq_mod]; simp
  simp [isParityPos, this]

@[simp] theorem isParityPos_zero : isParityPos 0 = true := rfl

/-- The parity positions are 0 and the powers of two (R54). -/
theorem isParityPos_iff (p : Nat) : isParityPos p = true ↔ p = 0 ∨ ∃ k, p = 2 ^ k := by
  constructor
  · intro h
    by_cases h0 : p = 0
    · exact .inl h0
    · right
      have hand : p &&& (p - 1) = 0 := by simpa [isParityPos, h0] using h
      refine ⟨Nat.log2 p, ?_⟩
      have hle := Nat.log2_self_le h0
      have hlt : p < 2 ^ (Nat.log2 p + 1) := Nat.lt_log2_self
      rcases Nat.lt_or_eq_of_le hle with hl | he
      · exfalso
        have hbit : ∀ m, 2 ^ Nat.log2 p ≤ m → m < 2 ^ (Nat.log2 p + 1) → m.testBit (Nat.log2 p) = true := by
          intro m h1 h2
          rw [Nat.testBit_eq_decide_div_mod_eq]
          have : m / 2 ^ Nat.log2 p = 1 := by
            apply Nat.div_eq_of_lt_le <;> rw [pow_succ] at * <;> omega
          simp [this]
        have hb := congrArg (fun x => Nat.testBit x (Nat.log2 p)) hand
        simp [Nat.testBit_and, hbit p hle hlt, hbit (p - 1) (by omega) (by omega)] at hb
      · exact he.symm
  · rintro (rfl | ⟨k, rfl⟩)
    · rfl
    · exact isParityPos_two_pow k

/-! ### Content -/

theorem contentFrom_set_parity (cw : Bits) (p q : Nat) (v : Bit) (h : isParityPos (p + q) = true) :
    contentFrom p (cw.set q v) = contentFrom p cw := by
  induction cw generalizing p q with
  | nil => rfl
  | cons b rest ih =>
    cases q with
    | zero => simp at h; simp [contentFrom, h]
    | succ q =>
      simp only [List.set_cons_succ, contentFrom]
      rw [ih (p + 1) q (by rw [show p + 1 + q = p + (q + 1) by omega]; exact h)]

/-- How many content positions lie in `p .. p + n - 1`. -/
theorem contentFrom_length (cw : Bits) (p : Nat) :
    (contentFrom p cw).length = ((List.range' p cw.length).filter fun q => !isParityPos q).length := by
  induction cw generalizing p with
  | nil => rfl
  | cons b rest ih =>
    simp only [contentFrom, List.length_cons, List.range'_succ, List.filter_cons]
    split <;> rename_i h <;> simp [h, ih]

@[simp] theorem placeContent_length (ps : List Nat) (content : Bits) : (placeContent ps content).length = ps.length := by
  induction ps generalizing content with
  | nil => rfl
  | cons p ps ih =>
    simp only [placeContent]
    split
    · simp [ih]
    · split <;> simp [ih]

/-- Stripping undoes inserting (R121), for a content that has as many bits as there are content positions. -/
theorem contentFrom_placeContent (n p : Nat) (content : Bits)
    (h : content.length = ((List.range' p n).filter fun q => !isParityPos q).length) :
    contentFrom p (placeContent (List.range' p n) content) = content := by
  induction n generalizing p content with
  | zero => simp at h; subst h; rfl
  | succ n ih =>
    rw [List.range'_succ, List.filter_cons] at h
    rw [List.range'_succ]
    by_cases hp : isParityPos p = true
    · simp only [hp, placeContent, if_true, contentFrom]
      exact ih (p + 1) content (by simpa [hp] using h)
    · have hp' : isParityPos p = false := by simpa using hp
      cases content with
      | nil => simp [hp'] at h
      | cons b rest =>
        simp only [placeContent, hp', Bool.false_eq_true, if_false, contentFrom]
        rw [ih (p + 1) rest (by simpa [hp'] using h)]

/-- The placeholder bits are 0 (R102). -/
theorem placeContent_parity (n p q : Nat) (content : Bits) (hq : q < n) (h : isParityPos (p + q) = true) :
    (placeContent (List.range' p n) content)[q]? = some false := by
  induction n generalizing p q content with
  | zero => omega
  | succ n ih =>
    rw [List.range'_succ]
    cases q with
    | zero => simp at h; simp [placeContent, h]
    | succ q =>
      have h' : isParityPos (p + 1 + q) = true := by rw [show p + 1 + q = p + (q + 1) by omega]; exact h
      simp only [placeContent]
      split
      · simpa using ih (p + 1) q content (by omega) h'
      · split <;> simpa using ih (p + 1) q _ (by omega) h'

/-! ### How many content positions there are (00_scope.md R6) -/

/-- `log2` steps up exactly at the powers of two. -/
theorem log2_step (n : Nat) (hn : 2 ≤ n) :
    Nat.log2 n = Nat.log2 (n - 1) + if isParityPos n then 1 else 0 := by
  have h0 : n ≠ 0 := by omega
  have h1 : n - 1 ≠ 0 := by omega
  have a1 := Nat.log2_self_le h0
  have a2 : n < 2 ^ (Nat.log2 n + 1) := Nat.lt_log2_self
  split
  · rename_i h
    obtain rfl | ⟨k, rfl⟩ := (isParityPos_iff n).mp h
    · omega
    · cases k with
      | zero => omega
      | succ k =>
        rw [Nat.log2_two_pow]
        congr 1
        symm
        rw [Nat.log2_eq_iff h1]
        rw [pow_succ] at *
        have := Nat.two_pow_pos k
        omega
  · rename_i h
    have hne : ∀ k, n ≠ 2 ^ k := fun k hk => h ((isParityPos_iff n).mpr (.inr ⟨k, hk⟩))
    symm
    rw [Nat.add_zero, Nat.log2_eq_iff h1]
    have := hne (Nat.log2 n)
    omega

/-- The parity positions below `n` are 0 and `floor(log2(n - 1)) + 1` powers of two. -/
theorem parityPositions_length (n : Nat) (hn : 2 ≤ n) :
    ((List.range n).filter isParityPos).length = Nat.log2 (n - 1) + 2 := by
  induction n, hn using Nat.le_induction with
  | base => decide
  | succ n hn ih =>
    rw [List.range_succ, List.filter_append, List.length_append, ih, Nat.add_sub_cancel, log2_step n hn]
    by_cases h : isParityPos n = true <;> simp [h]

theorem Config.nBits_ge (cfg : Config) : 56 ≤ cfg.nBits := by
  have h := cfg.admitted.1
  unfold Sizing.dataBytesValid Sizing.contentBytes Sizing.contentBits headerBytes at h
  rw [show Config.nBits cfg = Sizing.nBits cfg.dataBytes from rfl]
  have hk : 1 ≤ Sizing.kPar cfg.dataBytes := by unfold Sizing.kPar; omega
  have h8 : Sizing.nBits cfg.dataBytes = 8 * cfg.dataBytes := rfl
  by_contra hlt
  have hle : cfg.dataBytes ≤ 6 := by omega
  have : ∀ n, n ≤ 6 → ¬ 1 ≤ (Sizing.nBits n - 1 - Sizing.kPar n) / 8 - 5 := by decide
  exact this _ hle h

/-- `CONTENT_BITS` is the number of content positions (R6, R54). -/
theorem contentPositions_length (cfg : Config) : (contentPositions cfg).length = cfg.contentBits := by
  have hn := Config.nBits_ge cfg
  have hp := parityPositions_length cfg.nBits (by omega)
  have hsum : ((List.range cfg.nBits).filter isParityPos).length +
      ((List.range cfg.nBits).filter fun p => !isParityPos p).length = cfg.nBits := by
    have := List.length_eq_length_filter_add (l := List.range cfg.nBits) isParityPos
    simp at this
    omega
  have hc : cfg.contentBits = cfg.nBits - 1 - (Nat.log2 (cfg.nBits - 1) + 1) := rfl
  unfold contentPositions
  omega

theorem contentPositions_range' (cfg : Config) :
    ((List.range' 0 cfg.nBits).filter fun q => !isParityPos q).length = cfg.contentBits := by
  rw [← List.range_eq_range']; exact contentPositions_length cfg

/-- Every position is below `2 ^ K_PAR` (R104). -/
theorem Config.nBits_le (cfg : Config) : cfg.nBits ≤ 2 ^ cfg.kPar := by
  have hn := Config.nBits_ge cfg
  have : cfg.nBits - 1 < 2 ^ (Nat.log2 (cfg.nBits - 1) + 1) := Nat.lt_log2_self
  have hk : cfg.kPar = Nat.log2 (cfg.nBits - 1) + 1 := rfl
  rw [hk]; omega

/-- Every group-parity position is a position of the codeword (R6). -/
theorem Config.two_pow_lt (cfg : Config) (k : Nat) (hk : k < cfg.kPar) : 2 ^ k < cfg.nBits := by
  have hn := Config.nBits_ge cfg
  have h1 := Nat.log2_self_le (n := cfg.nBits - 1) (by omega)
  have hkp : cfg.kPar = Nat.log2 (cfg.nBits - 1) + 1 := rfl
  have := Nat.pow_le_pow_right (n := 2) (by omega) (show k ≤ Nat.log2 (cfg.nBits - 1) by omega)
  omega

/-- Header and the largest payload fit the content (R6, R67). -/
theorem Config.content_fits (cfg : Config) : 8 * (headerBytes + cfg.dataBytesValid) ≤ cfg.contentBits := by
  have h := cfg.admitted.1
  have h1 : cfg.dataBytesValid = cfg.contentBits / 8 - headerBytes := rfl
  have h2 : headerBytes = 5 := rfl
  have h3 : 1 ≤ cfg.contentBits / 8 - headerBytes := h
  omega

/-! ### The steps of the encoder -/

theorem insertParity_length (cfg : Config) (content : Bits) : (insertParity cfg content).length = cfg.nBits := by
  simp [insertParity]

theorem foldl_distribute_length (syn : Nat) (ks : List Nat) (cw : Bits) :
    (ks.foldl (fun acc k => if syn.testBit k then acc.set (2 ^ k) true else acc) cw).length = cw.length := by
  induction ks generalizing cw with
  | nil => rfl
  | cons k ks ih => rw [List.foldl_cons, ih]; split <;> simp

theorem distributeSyndrome_length (cfg : Config) (cw : Bits) (syn : Nat) :
    (distributeSyndrome cfg cw syn).length = cw.length := foldl_distribute_length syn _ cw

theorem foldl_distribute_content (syn : Nat) (ks : List Nat) (cw : Bits) :
    contentFrom 0 (ks.foldl (fun acc k => if syn.testBit k then acc.set (2 ^ k) true else acc) cw) =
      contentFrom 0 cw := by
  induction ks generalizing cw with
  | nil => rfl
  | cons k ks ih =>
    rw [List.foldl_cons, ih]
    split
    · exact contentFrom_set_parity cw 0 _ _ (by rw [Nat.zero_add]; exact isParityPos_two_pow k)
    · rfl

/-- Step 4 leaves the content alone (R104). -/
theorem distributeSyndrome_content (cfg : Config) (cw : Bits) (syn : Nat) :
    contentFrom 0 (distributeSyndrome cfg cw syn) = contentFrom 0 cw := foldl_distribute_content syn _ cw

/-- The exclusive-or of the weights of the set bits of a number below `2 ^ n` is the number. -/
theorem foldl_bits_eq (syn n : Nat) (h : syn < 2 ^ n) :
    (List.range n).foldl (fun acc k => acc ^^^ if syn.testBit k then 2 ^ k else 0) 0 = syn := by
  have key : ∀ n, (List.range n).foldl (fun acc k => acc ^^^ if syn.testBit k then 2 ^ k else 0) 0 = syn % 2 ^ n := by
    intro n
    induction n with
    | zero => simp [Nat.mod_one]
    | succ n ih =>
      rw [List.range_succ, List.foldl_append, ih]
      apply Nat.eq_of_testBit_eq
      intro j
      simp only [List.foldl_cons, List.foldl_nil, Nat.testBit_xor, Nat.testBit_mod_two_pow]
      by_cases hb : syn.testBit n = true
      · simp only [hb, if_true, Nat.testBit_two_pow]
        by_cases hj : n = j
        · subst hj; simp [hb]
        · have : j < n + 1 ↔ j < n := by omega
          simp [hj, this]
      · simp only [hb]
        by_cases hj : n = j
        · subst hj; simp [hb]
        · have : j < n + 1 ↔ j < n := by omega
          simp [this]
  rw [key n, Nat.mod_eq_of_lt h]

theorem foldl_distribute_syndrome (syn : Nat) (ks : List Nat) (cw : Bits) (hnd : ks.Nodup)
    (hz : ∀ k ∈ ks, cw[2 ^ k]? = some false) :
    syndrome (ks.foldl (fun acc k => if syn.testBit k then acc.set (2 ^ k) true else acc) cw) =
      ks.foldl (fun acc k => acc ^^^ if syn.testBit k then 2 ^ k else 0) (syndrome cw) := by
  induction ks generalizing cw with
  | nil => rfl
  | cons k ks ih =>
    obtain ⟨hk, hnd⟩ := List.nodup_cons.mp hnd
    rw [List.foldl_cons, List.foldl_cons]
    have hcw := hz k (by simp)
    by_cases hb : syn.testBit k = true
    · simp only [hb, if_true]
      rw [ih _ hnd]
      · congr 1
        obtain ⟨hlt, hget⟩ := List.getElem?_eq_some_iff.mp hcw
        rw [syndrome, syndromeFrom_set cw 0 _ _ hlt, hget]
        simp [syndrome]
      · intro j hj
        rw [List.getElem?_set_ne]
        · exact hz j (List.mem_cons_of_mem _ hj)
        · intro he
          have := Nat.pow_right_injective (le_refl 2) he
          subst this
          exact hk hj
    · simp only [hb]
      simpa using ih cw hnd (fun j hj => hz j (List.mem_cons_of_mem _ hj))

/-- After step 4 the syndrome is 0 (R104). -/
theorem distributeSyndrome_syndrome (cfg : Config) (cw : Bits) (hlen : cw.length = cfg.nBits)
    (hz : ∀ k, k < cfg.kPar → cw[2 ^ k]? = some false) :
    syndrome (distributeSyndrome cfg cw (syndrome cw)) = 0 := by
  unfold distributeSyndrome
  rw [foldl_distribute_syndrome _ _ _ List.nodup_range (fun k hk => hz k (by simpa using hk))]
  have hlt : syndrome cw < 2 ^ cfg.kPar := syndrome_lt cw _ (by rw [hlen]; exact Config.nBits_le cfg)
  have hx : ∀ (ks : List Nat) (a : Nat) (f : Nat → Nat),
      ks.foldl (fun acc k => acc ^^^ f k) a = a ^^^ ks.foldl (fun acc k => acc ^^^ f k) 0 := by
    intro ks
    induction ks with
    | nil => intro a f; simp
    | cons k ks ih => intro a f; rw [List.foldl_cons, List.foldl_cons, ih, ih (0 ^^^ f k), Nat.zero_xor, Nat.xor_assoc]
  rw [hx _ _ (fun k => if (syndrome cw).testBit k then 2 ^ k else 0), foldl_bits_eq _ _ hlt, Nat.xor_self]

@[simp] theorem setGlobalParity_length (cw : Bits) : (setGlobalParity cw).length = cw.length := by
  cases cw <;> rfl

/-- Step 5 makes the total parity 0 (R105). -/
@[simp] theorem setGlobalParity_parity (cw : Bits) : totalParity (setGlobalParity cw) = false := by
  cases cw <;> simp [setGlobalParity, totalParity]

/-- Position 0 does not affect the syndrome (R103). -/
@[simp] theorem setGlobalParity_syndrome (cw : Bits) : syndrome (setGlobalParity cw) = syndrome cw := by
  cases cw <;> simp [setGlobalParity, syndrome, syndromeFrom]

/-- Position 0 holds no content (R54). -/
@[simp] theorem setGlobalParity_content (cw : Bits) : contentFrom 0 (setGlobalParity cw) = contentFrom 0 cw := by
  cases cw <;> simp [setGlobalParity, contentFrom]

/-- What steps 2 to 6 of the encoder say of a content of `CONTENT_BITS` bits: a block of the right size that is a
valid codeword and holds the content (R110). -/
theorem protect_spec (cfg : Config) (content : Bits) (hc : content.length = cfg.contentBits) :
    (protect cfg content).length = cfg.dataBytes ∧ syndrome (unpack (protect cfg content)) = 0 ∧
      totalParity (unpack (protect cfg content)) = false ∧ stripParity (protect cfg content) = content := by
  have hlen : (setGlobalParity (distributeSyndrome cfg (insertParity cfg content)
      (syndrome (insertParity cfg content)))).length = 8 * cfg.dataBytes := by
    rw [setGlobalParity_length, distributeSyndrome_length, insertParity_length]; rfl
  have hun : unpack (protect cfg content) = setGlobalParity (distributeSyndrome cfg (insertParity cfg content)
      (syndrome (insertParity cfg content))) := unpack_pack cfg.dataBytes _ hlen
  refine ⟨pack_length _ _ hlen, ?_, ?_, ?_⟩
  · rw [hun, setGlobalParity_syndrome]
    refine distributeSyndrome_syndrome cfg _ (insertParity_length cfg content) fun k hk => ?_
    have := placeContent_parity cfg.nBits 0 (2 ^ k) content (Config.two_pow_lt cfg k hk)
      (by rw [Nat.zero_add]; exact isParityPos_two_pow k)
    simpa [insertParity, List.range_eq_range'] using this
  · rw [hun, setGlobalParity_parity]
  · rw [stripParity, hun, setGlobalParity_content, distributeSyndrome_content]
    have := contentFrom_placeContent cfg.nBits 0 content (by rw [contentPositions_range', hc])
    simpa [insertParity, List.range_eq_range'] using this

/-- The content of a header and a payload that fits has `CONTENT_BITS` bits (R101). -/
theorem buildContent_length (cfg : Config) (index size : Half) (flag : Byte) (payload : Bytes)
    (h : payload.length ≤ cfg.dataBytesValid) :
    (buildContent cfg index size flag payload).length = cfg.contentBits := by
  have hf := Config.content_fits cfg
  have h5 : headerBytes = 5 := rfl
  simp [buildContent, int16ToBytes]
  omega

end Sys2Proof.Machine
end

