-- ==== Sys2Proof/Laws/Codec.lean ====
section
/-! SUPPORT. One spec lemma per codec function: the header reader, the encoder, the parser, self-correction, payload
extraction, and the two working steps of the composite commands. The provers cite these instead of unfolding. -/

namespace Sys2Proof.Machine

/-! ### Memory operations keep the block's form -/

/-- A read inside the block gives as many bytes as were asked for, those at the addresses (00 R11). -/
theorem Memory.read_ok {m : Memory} {a n : Nat} (h : a + n ≤ m.length) :
    ∃ v, Memory.read m a n = .ok v ∧ v.length = n ∧ ∀ i, i < n → v[i]? = m.byteAt (a + i) := by
  refine ⟨(m.drop a).take n, by simp [Memory.read, h], by simp; omega, fun i hi => ?_⟩
  rw [List.getElem?_take_of_lt hi, List.getElem?_drop]
  rfl

/-- A write inside the block keeps its length, puts the bytes at the addresses and leaves every other byte (00 R11). -/
theorem Memory.write_ok {m : Memory} {a : Nat} {v : Bytes} (h : a + v.length ≤ m.length) :
    ∃ m', Memory.write m a v = .ok m' ∧ m'.length = m.length ∧
      ∀ b, m'.byteAt b = if a ≤ b ∧ b < a + v.length then v[b - a]? else m.byteAt b := by
  refine ⟨m.take a ++ v ++ m.drop (a + v.length), by simp [Memory.write, h], by simp; omega, fun b => ?_⟩
  have hta : (m.take a).length = a := by simp; omega
  unfold Memory.byteAt
  by_cases h1 : b < a
  · rw [List.append_assoc, List.getElem?_append_left (by omega), List.getElem?_take_of_lt h1, if_neg (by omega)]
  · by_cases h2 : b < a + v.length
    · rw [List.getElem?_append_left (by simp; omega), List.getElem?_append_right (by omega), hta, if_pos ⟨by omega, h2⟩]
    · rw [List.getElem?_append_right (by simp; omega), List.getElem?_drop, if_neg (by omega)]
      congr 1
      simp; omega

/-- Outside the block neither access happens (00 R11, 60 R178). -/
theorem Memory.access_error {m : Memory} {a : Nat} {v : Bytes} (h : m.length < a + v.length) :
    Memory.read m a v.length = .error .boundsError ∧ Memory.write m a v = .error .boundsError := by
  simp [Memory.read, Memory.write]; omega

/-- Every write to a block keeps its canonical form. -/
theorem Memory.write_wf {cfg : Config} {m m' : Memory} {a : Nat} {v : Bytes} (hw : Memory.wf cfg m = true)
    (h : Memory.write m a v = .ok m') : Memory.wf cfg m' = true := by
  by_cases hl : a + v.length ≤ m.length
  · obtain ⟨m'', h1, h2, -⟩ := Memory.write_ok hl
    rw [h] at h1; cases h1
    simpa [Memory.wf, h2] using hw
  · rw [(Memory.access_error (by omega)).2] at h; cases h

theorem setBit_length {blk blk' : Memory} {p : Nat} {v : Bit} (h : setBit blk p v = .ok blk') :
    blk'.length = blk.length := by
  unfold setBit at h
  split at h
  · cases h; simp
  · cases h

/-- Every bit access to a block keeps its canonical form. -/
theorem setBit_wf {cfg : Config} {m m' : Memory} {p : Nat} {v : Bit} (hw : Memory.wf cfg m = true)
    (h : setBit m p v = .ok m') : Memory.wf cfg m' = true := by
  simpa [Memory.wf, setBit_length h] using hw

theorem flipBit_wf {cfg : Config} {m m' : Memory} {p : Nat} (hw : Memory.wf cfg m = true)
    (h : flipBit m p = .ok m') : Memory.wf cfg m' = true := by
  obtain ⟨-, hlen, -⟩ := flipBit_inv h
  simpa [Memory.wf, hlen] using hw

/-! ### The header -/

theorem contentByte_unpack {hb : Bytes} {m : Nat} {b : Byte} (h : hb[m]? = some b) (rest : Bits) :
    contentByte (unpack hb ++ rest) m = .ok b := by
  obtain ⟨hm, hget⟩ := List.getElem?_eq_some_iff.mp h
  obtain ⟨pre, post, rfl, hl⟩ : ∃ pre post, hb = pre ++ b :: post ∧ pre.length = m :=
    ⟨hb.take m, hb.drop (m + 1), by rw [← hget]; simp, by simp; omega⟩
  have hbits : ((unpack (pre ++ b :: post) ++ rest).drop (8 * m)).take 8 = byteToBits b := by
    simp only [unpack_append, unpack_cons, List.append_assoc]
    rw [List.drop_append_of_le_length (by simp [hl]), List.drop_eq_nil_of_le (by simp [hl]), List.nil_append,
      List.take_append_of_le_length (by simp), List.take_of_length_le (by simp)]
  rw [contentByte, hbits, bitsToByte_byteToBits]

theorem bytesToInt16_int16ToBytes (x : Half) :
    bytesToInt16 [BitVec.ofNat 8 (x.toNat / 2 ^ 8), BitVec.ofNat 8 (x.toNat % 2 ^ 8)] = .ok x := by
  simp only [bytesToInt16]
  congr 1
  apply BitVec.eq_of_toNat_eq
  have := x.isLt
  simp only [BitVec.toNat_ofNat]
  omega

/-- The header is its five content bytes, big-endian (R122). -/
theorem readHeader_of_bytes {content : Bits} {b0 b1 b2 b3 b4 : Byte} (h0 : contentByte content 0 = .ok b0)
    (h1 : contentByte content 1 = .ok b1) (h2 : contentByte content 2 = .ok b2) (h3 : contentByte content 3 = .ok b3)
    (h4 : contentByte content 4 = .ok b4) {index size : Half} (hi : bytesToInt16 [b0, b1] = .ok index)
    (hs : bytesToInt16 [b2, b3] = .ok size) :
    readHeader content = .ok { index := index, size := size, fragFlag := b4 } := by
  simp only [readHeader, h0, h1, h2, h3, h4, hi, hs, bind, Except.bind, pure, Except.pure]

/-- Reading back the header that step 1 of the encoder wrote (R101, R122). -/
theorem readHeader_buildContent (cfg : Config) (index size : Half) (flag : Byte) (payload : Bytes) :
    readHeader (buildContent cfg index size flag payload) =
      .ok { index := index, size := size, fragFlag := flag } :=
  readHeader_of_bytes (contentByte_unpack rfl _) (contentByte_unpack rfl _) (contentByte_unpack rfl _)
    (contentByte_unpack rfl _) (contentByte_unpack rfl _) (bytesToInt16_int16ToBytes index)
    (bytesToInt16_int16ToBytes size)

/-- A content of at least 40 bits has a header (R122). -/
theorem readHeader_total (content : Bits) (h : 40 ≤ content.length) : ∃ hd, readHeader content = .ok hd := by
  have hb : ∀ m, m < 5 → ∃ b, contentByte content m = .ok b := by
    intro m hm
    refine ⟨_, if_pos ?_⟩
    simp; omega
  obtain ⟨b0, h0⟩ := hb 0 (by omega)
  obtain ⟨b1, h1⟩ := hb 1 (by omega)
  obtain ⟨b2, h2⟩ := hb 2 (by omega)
  obtain ⟨b3, h3⟩ := hb 3 (by omega)
  obtain ⟨b4, h4⟩ := hb 4 (by omega)
  exact ⟨_, readHeader_of_bytes h0 h1 h2 h3 h4 rfl rfl⟩

/-- The content of a block of the right size has `CONTENT_BITS` bits (R121). -/
theorem stripParity_length (cfg : Config) (blk : Bytes) (h : blk.length = cfg.dataBytes) :
    (stripParity blk).length = cfg.contentBits := by
  rw [stripParity, contentFrom_length, unpack_length, h]
  exact contentPositions_range' cfg

/-- A block of the right size has a header. -/
theorem readHeader_block (cfg : Config) (blk : Bytes) (h : blk.length = cfg.dataBytes) :
    ∃ hd, readHeader (stripParity blk) = .ok hd := by
  apply readHeader_total
  rw [stripParity_length cfg blk h]
  have := Config.content_fits cfg
  have h5 : headerBytes = 5 := rfl
  omega

/-! ### Encoder and parser -/

/-- What the encoder answers (R108). -/
theorem encodeFn_cases (cfg : Config) (index : Half) (flag : Byte) (payload : Bytes) :
    (cfg.dataBytesValid < payload.length ∧ encodeFn cfg index flag payload = .error .payloadTooLarge) ∨
    (payload.length ≤ cfg.dataBytesValid ∧ flag ≠ 0 ∧ flag ≠ 1 ∧
      encodeFn cfg index flag payload = .error .invalidFragFlag) ∨
    (payload.length ≤ cfg.dataBytesValid ∧ (flag = 0 ∨ flag = 1) ∧
      encodeFn cfg index flag payload =
        .ok { block := protect cfg (buildContent cfg index (BitVec.ofNat 16 payload.length) flag payload),
              index := index, size := BitVec.ofNat 16 payload.length, fragFlag := flag }) := by
  unfold encodeFn
  by_cases h1 : payload.length > cfg.dataBytesValid
  · exact .inl ⟨h1, by rw [if_pos h1]⟩
  · rw [if_neg h1]
    by_cases h2 : flag ≠ 0 ∧ flag ≠ 1
    · exact .inr (.inl ⟨by omega, h2.1, h2.2, by rw [if_pos h2]⟩)
    · exact .inr (.inr ⟨by omega, by tauto, by rw [if_neg h2]⟩)

/-- What a successful encoding is. -/
theorem encodeFn_inv {cfg : Config} {index : Half} {flag : Byte} {payload : Bytes} {pkt : Packet}
    (h : encodeFn cfg index flag payload = .ok pkt) :
    payload.length ≤ cfg.dataBytesValid ∧ (flag = 0 ∨ flag = 1) ∧ pkt.index = index ∧
      pkt.size = BitVec.ofNat 16 payload.length ∧ pkt.fragFlag = flag ∧
      pkt.block = protect cfg (buildContent cfg index (BitVec.ofNat 16 payload.length) flag payload) := by
  rcases encodeFn_cases cfg index flag payload with ⟨-, h'⟩ | ⟨-, -, -, h'⟩ | ⟨h1, h2, h'⟩ <;> rw [h] at h'
  · cases h'
  · cases h'
  · cases h'; exact ⟨h1, h2, rfl, rfl, rfl, rfl⟩

/-- The size field of an encoded payload is its length, without truncation (00 R12). -/
theorem size_toInt {cfg : Config} {len : Nat} (h : len ≤ cfg.dataBytesValid) :
    (BitVec.ofNat 16 len : Half).toInt = len ∧ (BitVec.ofNat 16 len : Half).toNat = len := by
  have := cfg.admitted.2
  have hv : cfg.dataBytesValid ≤ 32767 := this
  have hn : (BitVec.ofNat 16 len : Half).toNat = len := by rw [BitVec.toNat_ofNat]; omega
  exact ⟨by rw [BitVec.toInt_eq_toNat_cond, hn]; simp; omega, hn⟩

/-- What the parser answers (R140): it looks at the length only. -/
theorem parseFn_cases (cfg : Config) (bytes : Bytes) :
    (bytes.length ≠ cfg.dataBytes ∧ parseFn cfg bytes = .error .invalidBlockSize) ∨
    (bytes.length = cfg.dataBytes ∧ ∃ hd, readHeader (stripParity bytes) = .ok hd ∧
      parseFn cfg bytes = .ok { block := bytes, index := hd.index, size := hd.size, fragFlag := hd.fragFlag }) := by
  by_cases h : bytes.length = cfg.dataBytes
  · obtain ⟨hd, hhd⟩ := readHeader_block cfg bytes h
    exact .inr ⟨h, hd, hhd, by simp [parseFn, h, hhd, Except.map]⟩
  · exact .inl ⟨h, by simp [parseFn, h]⟩

/-! ### Self-correction -/

/-- What self-correction answers (R125): the four cases of the decision tree. -/
theorem selfCorrectFn_cases (blk : Memory) :
    (syndrome (unpack blk) = 0 ∧ selfCorrectFn blk = .ok (blk, .noErrorFound)) ∨
    (syndrome (unpack blk) ≠ 0 ∧ totalParity (unpack blk) = true ∧ syndrome (unpack blk) < 8 * blk.length ∧
      ∃ blk', flipBit blk (syndrome (unpack blk)) = .ok blk' ∧
        selfCorrectFn blk = .ok (blk', .corrected (syndrome (unpack blk)))) ∨
    (syndrome (unpack blk) ≠ 0 ∧ totalParity (unpack blk) = true ∧ 8 * blk.length ≤ syndrome (unpack blk) ∧
      selfCorrectFn blk = .error .boundsError) ∨
    (syndrome (unpack blk) ≠ 0 ∧ totalParity (unpack blk) = false ∧
      selfCorrectFn blk = .ok (blk, .uncorrectableDoubleError)) := by
  unfold selfCorrectFn
  by_cases h0 : syndrome (unpack blk) = 0
  · exact .inl ⟨h0, by simp [h0]⟩
  · right
    by_cases ht : totalParity (unpack blk) = true
    · by_cases hb : syndrome (unpack blk) < 8 * blk.length
      · obtain ⟨blk', hf, -, -⟩ := flipBit_ok hb
        exact .inl ⟨h0, ht, hb, blk', hf, by simp [h0, ht, hf, Except.map]⟩
      · exact .inr (.inl ⟨h0, ht, by omega, by simp [h0, ht, flipBit_error (Nat.le_of_not_lt hb), Except.map]⟩)
    · exact .inr (.inr ⟨h0, by simpa using ht, by simp [h0, ht]⟩)

/-- Self-correction keeps the length of the block, and reports a position only inside it. -/
theorem selfCorrectFn_ok {blk b : Memory} {o : CorrectionOutcome} (h : selfCorrectFn blk = .ok (b, o)) :
    b.length = blk.length ∧ (o = .noErrorFound ∧ b = blk ∨ o = .uncorrectableDoubleError ∧ b = blk ∨
      ∃ p, o = .corrected p ∧ 1 ≤ p ∧ p < 8 * blk.length ∧ flipBit blk p = .ok b) := by
  rcases selfCorrectFn_cases blk with ⟨-, h'⟩ | ⟨h0, -, hlt, b', hf, h'⟩ | ⟨-, -, -, h'⟩ | ⟨-, -, h'⟩ <;> rw [h] at h'
  · cases h'; exact ⟨rfl, .inl ⟨rfl, rfl⟩⟩
  · cases h'
    obtain ⟨-, hlen, -⟩ := flipBit_inv hf
    exact ⟨hlen, .inr (.inr ⟨_, rfl, by omega, hlt, hf⟩)⟩
  · cases h'
  · cases h'; exact ⟨rfl, .inr (.inl ⟨rfl, rfl⟩)⟩

/-- The only error of self-correction is `BoundsError` (R125 d). -/
theorem selfCorrectFn_error {blk : Memory} {e : Err} (h : selfCorrectFn blk = .error e) : e = .boundsError := by
  rcases selfCorrectFn_cases blk with ⟨-, h'⟩ | ⟨-, -, -, b', -, h'⟩ | ⟨-, -, -, h'⟩ | ⟨-, -, h'⟩ <;> rw [h] at h' <;>
    cases h'
  rfl

/-! ### The working step of TOPAYLOAD and JOIN -/

/-- Everything `toPayloadStep` can do (R128, R132). -/
theorem toPayloadStep_cases (s : State) (pkt : Packet) :
    (selfCorrectFn pkt.block = .error .boundsError ∧ toPayloadStep s pkt = (s, .error .boundsError)) ∨
    ∃ b o, selfCorrectFn pkt.block = .ok (b, o) ∧
      ((o = .uncorrectableDoubleError ∧
          toPayloadStep s pkt = ((s.load { pkt with block := b }).recordOutcome o, .error .uncorrectableError)) ∨
       (o ≠ .uncorrectableDoubleError ∧ ∃ e, extractPayload s.cfg b = .error e ∧
          toPayloadStep s pkt = ((s.load { pkt with block := b }).recordOutcome o, .error e)) ∨
       (o ≠ .uncorrectableDoubleError ∧ ∃ h payload, extractPayload s.cfg b = .ok (h, payload) ∧
          toPayloadStep s pkt =
            (((s.load { pkt with block := b }).recordOutcome o).load
                { block := b, index := h.index, size := h.size, fragFlag := h.fragFlag },
             .ok ({ block := b, index := h.index, size := h.size, fragFlag := h.fragFlag }, payload)))) := by
  unfold toPayloadStep
  cases hs : selfCorrectFn pkt.block with
  | error e => obtain rfl := selfCorrectFn_error hs; exact .inl ⟨rfl, rfl⟩
  | ok r =>
    obtain ⟨b, o⟩ := r
    refine .inr ⟨b, o, rfl, ?_⟩
    by_cases ho : o = .uncorrectableDoubleError
    · exact .inl ⟨ho, by simp [ho]⟩
    · right
      cases he : extractPayload s.cfg b with
      | error e => exact .inl ⟨ho, e, rfl, by simp [ho, he]⟩
      | ok r => exact .inr ⟨ho, r.1, r.2, rfl, by simp [ho, he]⟩

/-- What payload extraction answers on a block of the right size (R129, R130). -/
theorem extractPayload_cases (cfg : Config) (blk : Memory) (hlen : blk.length = cfg.dataBytes) :
    ∃ hd, readHeader (stripParity blk) = .ok hd ∧
      (((hd.size.toInt < 0 ∨ (cfg.dataBytesValid : Int) < hd.size.toInt) ∧
          extractPayload cfg blk = .error .sizeOutOfRange) ∨
       (0 ≤ hd.size.toInt ∧ hd.size.toInt ≤ cfg.dataBytesValid ∧ hd.fragFlag ≠ 0 ∧ hd.fragFlag ≠ 1 ∧
          extractPayload cfg blk = .error .invalidFragFlag) ∨
       (0 ≤ hd.size.toInt ∧ hd.size.toInt ≤ cfg.dataBytesValid ∧ (hd.fragFlag = 0 ∨ hd.fragFlag = 1) ∧
          extractPayload cfg blk =
            .ok (hd, pack (((stripParity blk).drop (8 * headerBytes)).take (8 * hd.size.toNat))))) := by
  obtain ⟨hd, hhd⟩ := readHeader_block cfg blk hlen
  refine ⟨hd, hhd, ?_⟩
  simp only [extractPayload, hhd]
  by_cases h1 : hd.size.toInt < 0 ∨ hd.size.toInt > cfg.dataBytesValid
  · exact .inl ⟨h1, by rw [if_pos h1]⟩
  · rw [if_neg h1]
    by_cases h2 : hd.fragFlag ≠ 0 ∧ hd.fragFlag ≠ 1
    · exact .inr (.inl ⟨by omega, by omega, h2.1, h2.2, by rw [if_pos h2]⟩)
    · exact .inr (.inr ⟨by omega, by omega, by tauto, by rw [if_neg h2]⟩)

/-- The payload of an encoded block comes back (R134), whatever its parity bits hold. -/
theorem extractPayload_content (cfg : Config) (blk : Memory) (index : Half) (flag : Byte) (payload : Bytes)
    (hp : payload.length ≤ cfg.dataBytesValid) (hf : flag = 0 ∨ flag = 1)
    (hc : stripParity blk = buildContent cfg index (BitVec.ofNat 16 payload.length) flag payload) :
    extractPayload cfg blk =
      .ok ({ index := index, size := BitVec.ofNat 16 payload.length, fragFlag := flag }, payload) := by
  obtain ⟨hi, hn⟩ := size_toInt hp
  have hv : (payload.length : Int) ≤ cfg.dataBytesValid := by exact_mod_cast hp
  have hflag : ¬(flag ≠ 0 ∧ flag ≠ 1) := by tauto
  have hpay : pack (((stripParity blk).drop (8 * headerBytes)).take (8 * payload.length)) = payload := by
    rw [hc, buildContent]
    have h40 : (unpack (int16ToBytes index ++ int16ToBytes (BitVec.ofNat 16 payload.length) ++ [flag])).length =
        8 * headerBytes := by simp [int16ToBytes, headerBytes]
    rw [unpack_append, List.append_assoc, List.drop_append_of_le_length (by rw [h40]),
      List.drop_eq_nil_of_le (by rw [h40]), List.nil_append, List.take_append_of_le_length (by simp),
      List.take_of_length_le (by simp), pack_unpack]
  have hhd : readHeader (stripParity blk) =
      .ok { index := index, size := BitVec.ofNat 16 payload.length, fragFlag := flag } := by
    rw [hc]; exact readHeader_buildContent cfg index _ flag payload
  simp only [extractPayload, hhd, hi, hn]
  rw [if_neg (by omega), if_neg hflag, hpay]

end Sys2Proof.Machine
end

