-- ==== Sys2Proof/Laws/Commands.lean ====
section
/-! SUPPORT. The composite commands' working functions: what SPLIT's and JOIN's loops leave, the frame of the shared
steps, and the bridge between a block's set positions and its syndrome and parity. -/

namespace Sys2Proof.Machine

/-! ### Set positions, syndrome, parity -/

theorem getBit_toOption (blk : Memory) (p : Nat) : (getBit blk p).toOption = (unpack blk)[p]? := by
  rw [getBit_eq]
  cases (unpack blk)[p]? <;> rfl

theorem setPositions_eq (blk : Memory) :
    setPositions blk = (List.range (unpack blk).length).filter fun p => (unpack blk)[p]? == some true := by
  simp [setPositions, getBit_toOption]

theorem syndromeFrom_eq_xorOf (cw : Bits) (p : Nat) :
    syndromeFrom p cw =
      Channel.xorOf (((List.range cw.length).filter fun q => cw[q]? == some true).map (p + ·)) := by
  induction cw generalizing p with
  | nil => rfl
  | cons b rest ih =>
    rw [syndromeFrom, ih, List.length_cons, List.range_succ_eq_map, List.filter_cons, List.filter_map]
    have hf : ((fun q => (b :: rest)[q]? == some true) ∘ Nat.succ) = fun q => rest[q]? == some true := by
      funext q; simp
    have hm : ((fun x => p + x) ∘ Nat.succ) = fun x => p + 1 + x := by funext q; simp; omega
    cases b <;> simp [hf, hm, Channel.xorOf]

/-- The syndrome is the exclusive-or of the set positions (R103). -/
theorem syndrome_eq_xorOf (blk : Memory) : syndrome (unpack blk) = Channel.xorOf (setPositions blk) := by
  rw [setPositions_eq, syndrome, syndromeFrom_eq_xorOf]
  congr 1
  simp

theorem totalParity_eq_count (cw : Bits) :
    totalParity cw = decide (((List.range cw.length).filter fun q => cw[q]? == some true).length % 2 = 1) := by
  induction cw with
  | nil => rfl
  | cons b rest ih =>
    rw [totalParity, ih, List.length_cons, List.range_succ_eq_map, List.filter_cons, List.filter_map]
    have hf : ((fun q => (b :: rest)[q]? == some true) ∘ Nat.succ) = fun q => rest[q]? == some true := by
      funext q; simp
    rw [hf]
    cases b
    · simp
    · simp
      by_cases h : ((List.range rest.length).filter fun q => rest[q]? == some true).length % 2 = 1
      · simp [h]; omega
      · simp [h]; omega

/-- The total parity is the number of set positions modulo 2 (R105). -/
theorem totalParity_eq_setPositions (blk : Memory) :
    totalParity (unpack blk) = decide ((setPositions blk).length % 2 = 1) := by
  rw [setPositions_eq, totalParity_eq_count]

/-- A valid codeword (R61), by syndrome and parity. -/
theorem validCodeword_iff (blk : Memory) :
    ValidCodeword blk ↔ syndrome (unpack blk) = 0 ∧ totalParity (unpack blk) = false := by
  rw [ValidCodeword, syndrome_eq_xorOf, totalParity_eq_setPositions]
  simp

/-- What the channel does to syndrome and parity (42 R127). -/
theorem corrupt_spec (blk blk' : Memory) (flips : List Nat) (h : Channel.corrupt blk flips = .ok blk') :
    blk'.length = blk.length ∧ (∀ p ∈ flips, p < 8 * blk.length) ∧
      syndrome (unpack blk') = syndrome (unpack blk) ^^^ Channel.xorOf flips ∧
      totalParity (unpack blk') = (totalParity (unpack blk) ^^ decide (flips.length % 2 = 1)) := by
  induction flips generalizing blk with
  | nil => cases h; simp [Channel.xorOf]
  | cons p flips ih =>
    have h' : (flipBit blk p >>= fun b => Channel.corrupt b flips) = .ok blk' := h
    cases hf : flipBit blk p with
    | error e => rw [hf] at h'; cases h'
    | ok b =>
      rw [hf] at h'
      obtain ⟨hl, hr, hs, ht⟩ := ih b h'
      obtain ⟨hp, hlen, hun⟩ := flipBit_inv hf
      refine ⟨hl.trans hlen, ?_, ?_, ?_⟩
      · intro q hq
        rcases List.mem_cons.mp hq with rfl | hq
        · simpa using hp
        · have := hr q hq; omega
      · rw [hs, hun, syndrome_flip _ _ hp, Nat.xor_assoc]; rfl
      · rw [ht, hun, totalParity_flip _ _ hp, List.length_cons]
        have hodd : decide ((flips.length + 1) % 2 = 1) = !decide (flips.length % 2 = 1) := by
          by_cases h2 : flips.length % 2 = 1
          · have h3 : ¬(flips.length + 1) % 2 = 1 := by omega
            simp [h2, h3]
          · have h3 : (flips.length + 1) % 2 = 1 := by omega
            simp [h2, h3]
        rw [hodd]
        cases totalParity (unpack blk) <;> simp

/-! ### Frames of the shared steps -/

/-- TOPAYLOAD's step changes P, OUTCOME and POS only, and leaves a packet in P if one was there. -/
theorem toPayloadStep_frame (s : State) (pkt : Packet) :
    (toPayloadStep s pkt).1.cfg = s.cfg ∧ (toPayloadStep s pkt).1.cmd = s.cmd ∧
      (toPayloadStep s pkt).1.pending = s.pending ∧ (toPayloadStep s pkt).1.rsp = s.rsp ∧
      (toPayloadStep s pkt).1.status.err = s.status.err ∧
      ((toPayloadStep s pkt).1.p = s.p ∨ ((toPayloadStep s pkt).1.p).isSome) := by
  rcases toPayloadStep_cases s pkt with ⟨-, h⟩ | ⟨b, o, -, ⟨-, h⟩ | ⟨-, e, -, h⟩ | ⟨-, hd, pl, -, h⟩⟩ <;> rw [h] <;> simp

/-- JOIN's loop changes P, OUTCOME and POS only, and leaves a packet in P if one was there. -/
theorem joinLoop_frame (blocks : List Bytes) (expected : Nat) (out : Bytes) (s : State) :
    (joinLoop expected out blocks s).1.cfg = s.cfg ∧ (joinLoop expected out blocks s).1.cmd = s.cmd ∧
      (joinLoop expected out blocks s).1.pending = s.pending ∧ (joinLoop expected out blocks s).1.rsp = s.rsp ∧
      (joinLoop expected out blocks s).1.status.err = s.status.err ∧
      ((joinLoop expected out blocks s).1.p = s.p ∨ ((joinLoop expected out blocks s).1.p).isSome) := by
  induction blocks generalizing expected out s with
  | nil => simp [joinLoop]
  | cons blk rest ih =>
    rcases parseFn_cases s.cfg blk with ⟨-, hp⟩ | ⟨-, hd, -, hp⟩
    · simp [joinLoop, hp]
    · simp only [joinLoop, hp]
      have hf := toPayloadStep_frame (s.load { block := blk, index := hd.index, size := hd.size, fragFlag := hd.fragFlag })
        { block := blk, index := hd.index, size := hd.size, fragFlag := hd.fragFlag }
      have hsome : ((toPayloadStep (s.load ⟨blk, hd.index, hd.size, hd.fragFlag⟩)
          ⟨blk, hd.index, hd.size, hd.fragFlag⟩).1.p).isSome := by
        rcases hf.2.2.2.2.2 with h | h
        · rw [h]; rfl
        · exact h
      generalize toPayloadStep (s.load ⟨blk, hd.index, hd.size, hd.fragFlag⟩) ⟨blk, hd.index, hd.size, hd.fragFlag⟩ = r
        at hf hsome
      obtain ⟨s1, res⟩ := r
      simp only [State.load_cfg, State.load_cmd, State.load_pending, State.load_rsp, State.load_status] at hf
      obtain ⟨h1, h2, h3, h4, h5, -⟩ := hf
      cases res with
      | error e => exact ⟨h1, h2, h3, h4, h5, .inr hsome⟩
      | ok pr =>
        obtain ⟨pkt', bytes⟩ := pr
        dsimp only
        split
        · exact ⟨h1, h2, h3, h4, h5, .inr hsome⟩
        · split
          · exact ⟨h1, h2, h3, h4, h5, .inr hsome⟩
          · obtain ⟨i1, i2, i3, i4, i5, i6⟩ := ih (expected + 1) (out ++ bytes) s1
            refine ⟨i1.trans h1, i2.trans h2, i3.trans h3, i4.trans h4, i5.trans h5, .inr ?_⟩
            rcases i6 with h | h
            · rw [h]; exact hsome
            · exact h

/-! ### Fragmentation -/

theorem chunk_length_le (cfg : Config) (payload : Bytes) (i : Nat) :
    (chunk cfg payload i).length ≤ cfg.dataBytesValid := by
  simp [chunk]

theorem chunkFlag_cases (n i : Nat) : chunkFlag n i = 0 ∨ chunkFlag n i = 1 := by
  unfold chunkFlag; split <;> simp

/-- No encoding inside SPLIT can fail (R152). -/
theorem encodeFn_chunk (cfg : Config) (payload : Bytes) (n i : Nat) :
    ∃ pkt, encodeFn cfg (BitVec.ofNat 16 i) (chunkFlag n i) (chunk cfg payload i) = .ok pkt := by
  rcases encodeFn_cases cfg (BitVec.ofNat 16 i) (chunkFlag n i) (chunk cfg payload i) with ⟨h, -⟩ | ⟨-, h0, h1, -⟩ | ⟨-, -, h⟩
  · have := chunk_length_le cfg payload i; omega
  · rcases chunkFlag_cases n i with h | h
    · exact absurd h h0
    · exact absurd h h1
  · exact ⟨_, h⟩

theorem mapM_ok {α β : Type} (f : α → Except Err β) (l : List α) (h : ∀ a ∈ l, ∃ b, f a = .ok b) :
    ∃ bs, l.mapM f = .ok bs ∧ bs.length = l.length ∧ ∀ (k : Nat) (a : α), l[k]? = some a → ∃ b, f a = .ok b ∧ bs[k]? = some b := by
  induction l with
  | nil => exact ⟨[], by simp [pure, Except.pure], rfl, by simp⟩
  | cons a l ih =>
    obtain ⟨b, hb⟩ := h a (by simp)
    obtain ⟨bs, hbs, hlen, hget⟩ := ih fun x hx => h x (List.mem_cons_of_mem _ hx)
    refine ⟨b :: bs, by simp [List.mapM_cons, hb, hbs, bind, Except.bind, pure, Except.pure], by simp [hlen], ?_⟩
    intro k x hk
    cases k with
    | zero => simp at hk; subst hk; exact ⟨b, hb, rfl⟩
    | succ k => simpa using hget k x (by simpa using hk)

/-- What SPLIT computes (R152, R153): an error when there are too many chunks, else one encoded packet per chunk. -/
theorem splitFn_cases (cfg : Config) (payload : Bytes) :
    (maxFragments < chunkCount cfg payload.length ∧ splitFn cfg payload = .error .indexOverflow) ∨
    (chunkCount cfg payload.length ≤ maxFragments ∧ ∃ pkts, splitFn cfg payload = .ok pkts ∧
      pkts.length = chunkCount cfg payload.length ∧
      ∀ i, i < chunkCount cfg payload.length → ∃ pkt,
        encodeFn cfg (BitVec.ofNat 16 i) (chunkFlag (chunkCount cfg payload.length) i) (chunk cfg payload i) = .ok pkt ∧
        pkts[i]? = some pkt) := by
  unfold splitFn
  by_cases hn : chunkCount cfg payload.length > maxFragments
  · exact .inl ⟨hn, by simp [hn]⟩
  · obtain ⟨pkts, h1, h2, h3⟩ := mapM_ok
      (fun i => encodeFn cfg (BitVec.ofNat 16 i) (chunkFlag (chunkCount cfg payload.length) i) (chunk cfg payload i))
      (List.range (chunkCount cfg payload.length)) (fun i _ => encodeFn_chunk cfg payload _ i)
    refine .inr ⟨by omega, pkts, by simp [hn, h1], by simpa using h2, fun i hi => h3 i i ?_⟩
    simp [hi]

/-- A list of packets that is not empty leaves its last one in P. -/
theorem State.loadLast_of_getLast? {s : State} {pkts : List Packet} {pkt : Packet} (h : pkts.getLast? = some pkt) :
    s.loadLast pkts = s.load pkt := by
  simp [State.loadLast, h]

/-- Whatever a list of packets leaves in P, nothing else changes. -/
theorem State.loadLast_frame (s : State) (pkts : List Packet) :
    (s.loadLast pkts).cfg = s.cfg ∧ (s.loadLast pkts).cmd = s.cmd ∧ (s.loadLast pkts).pending = s.pending ∧
      (s.loadLast pkts).rsp = s.rsp ∧ (s.loadLast pkts).status = s.status ∧
      ((s.loadLast pkts).p = s.p ∨ ((s.loadLast pkts).p).isSome) := by
  unfold State.loadLast
  split <;> simp

end Sys2Proof.Machine
end

