-- ==== Sys2Proof/Laws/Decode.lean ====
section
/-! SUPPORT. The opcode table is unambiguous (30_encoding.md R72), and decoding and the encoder agree. -/

namespace Sys2Proof

/-- At most one row of the table matches a word. -/
theorem opcodeTable_disjoint :
    opcodeTable.Pairwise fun r r' => ¬(r.pattern &&& (r.mask &&& r'.mask) = r'.pattern &&& (r.mask &&& r'.mask)) := by
  decide

/-- Every instruction is in the table, with its opcode. -/
theorem opcode_in_table (i : Instr) : ∃ r ∈ opcodeTable, r.instr = i ∧ r.pattern = opcode i ∧ r.mask = 0xFF#8 := by
  cases i <;> simp [opcodeTable, opcode]

@[simp] theorem decodeOp_opcode (i : Instr) : decodeOp (opcode i) = some i := by
  cases i <;> decide

/-- The only opcode that decodes to an instruction is its own. -/
theorem opcode_of_decodeOp {op : Byte} {i : Instr} (h : decodeOp op = some i) : op = opcode i := by
  unfold decodeOp at h
  obtain ⟨r, hr, rfl⟩ := Option.map_eq_some_iff.mp h
  have hm := List.mem_of_find?_eq_some hr
  have ha := List.find?_some hr
  have row : ∀ r ∈ opcodeTable, r.mask = 0xFF#8 ∧ r.pattern = opcode r.instr := by decide
  obtain ⟨hmask, hpat⟩ := row r hm
  have hall : op &&& 0xFF#8 = op := by
    have : (0xFF#8 : Byte) = BitVec.allOnes 8 := by decide
    rw [this, BitVec.and_allOnes]
  simpa [OpcodeRow.accepts, hmask, hall, hpat] using ha

end Sys2Proof
end

