-- ==== Sys2Proof/Laws/PerInstr.lean ====
section
/-! SUPPORT. What is said of every instruction as syntax: it is well formed, its encoding is one byte whose value the
opcode table gives, and that byte, followed by anything, decodes to it (30_encoding.md R68, R71, R73). -/

namespace Sys2Proof.Laws.Opcode

/-- The encoding of an instruction is one byte, in the table, and decodes to the instruction. -/
def Statement (i : Instr) : Prop :=
  i.wf = true ∧ (encode i).length = 1 ∧ ∀ rest, decode (encode i ++ rest) = .ok (i, rest)

theorem of_instr (i : Instr) : Statement i :=
  ⟨rfl, rfl, fun rest => by simp [encode, decode]⟩

theorem byte2bits : Statement .byte2bits := of_instr _
theorem bits2byte : Statement .bits2byte := of_instr _
theorem int16tobytes : Statement .int16tobytes := of_instr _
theorem bytestoint16 : Statement .bytestoint16 := of_instr _
theorem int32tobytes : Statement .int32tobytes := of_instr _
theorem bytestoint32 : Statement .bytestoint32 := of_instr _
theorem encode : Statement .encode := of_instr _
theorem parse : Statement .parse := of_instr _
theorem syndrome : Statement .syndrome := of_instr _
theorem parity : Statement .parity := of_instr _
theorem selfcorrect : Statement .selfcorrect := of_instr _
theorem topayload : Statement .topayload := of_instr _
theorem split : Statement .split := of_instr _
theorem join : Statement .join := of_instr _

end Sys2Proof.Laws.Opcode
end

