-- ==== Sys2Proof/Tests/Slice0.lean ====
section
/-! SUPPORT. The model's own tests. Expected values are those of spec/95_test_vectors.md (vector names in the comments)
and of the examples in the rules; one step each, on the 16-byte test instance unless said. After them, for every
statement that has hypotheses, a witness that meets them. -/

namespace Sys2Proof.Tests

open Sys2Proof.Machine

-- Elaborate the tests one after another: many kernel evaluations at once would each hold a thread and its stack.
set_option Elab.async false

/-! ### Helpers -/

/-- A unit of a given size with a given packet register and command port. -/
def unit (cfg : Config) (p : Option Packet) (cmd : Command) : State :=
  { State.reset with cfg := cfg, p := p, cmd := cmd }

/-- The next state of an outcome satisfies a test. -/
def nextSat (o : Host.Outcome State Fault Refusal) (f : State → Bool) : Bool :=
  match o with
  | .next t => f t
  | .fault _ => false
  | .refused _ => false

/-- The next state has the given packet register, STATUS and response. -/
def leaves (o : Host.Outcome State Fault Refusal) (p : Option Packet) (st : Status) (r : Response) : Bool :=
  nextSat o fun t => t.p == p && t.status == st && t.rsp == some r

def digits : Bytes := [0x30, 0x31, 0x32, 0x33, 0x34, 0x35, 0x36, 0x37, 0x38, 0x39]
/-- B0 of 95 E4: index 3, size 10, flag 0, payload "0123456789". -/
def blkB0 : Bytes := [0x40, 0x00, 0x8C, 0x00, 0x94, 0x00, 0x60, 0x62, 0x32, 0x33, 0x34, 0x35, 0x36, 0x37, 0x38, 0x39]
def pktB0 : Packet := ⟨blkB0, 3, 10, 0⟩
/-- B0 with position 77 flipped (95 S6). -/
def blkS6 : Bytes := [0x40, 0x00, 0x8C, 0x00, 0x94, 0x00, 0x60, 0x62, 0x32, 0x37, 0x34, 0x35, 0x36, 0x37, 0x38, 0x39]
/-- B0 with position 0 flipped (95 S2). -/
def blkS2 : Bytes := [0xC0, 0x00, 0x8C, 0x00, 0x94, 0x00, 0x60, 0x62, 0x32, 0x33, 0x34, 0x35, 0x36, 0x37, 0x38, 0x39]
/-- B0 with positions 1, 2, 4 flipped (95 S11). -/
def blkS11 : Bytes := [0x28, 0x00, 0x8C, 0x00, 0x94, 0x00, 0x60, 0x62, 0x32, 0x33, 0x34, 0x35, 0x36, 0x37, 0x38, 0x39]
/-- B0 with positions 5, 9 flipped (95 S8). -/
def blkS8 : Bytes := [0x44, 0x40, 0x8C, 0x00, 0x94, 0x00, 0x60, 0x62, 0x32, 0x33, 0x34, 0x35, 0x36, 0x37, 0x38, 0x39]
/-- 95 T1: a valid codeword with size 11; T3: flag 2; T7: non-zero padding; T8: T1 with position 100 flipped. -/
def blkT1 : Bytes := [0x00, 0x00, 0x00, 0x00, 0x96] ++ List.replicate 11 0x00
def blkT3 : Bytes := [0x80, 0x80, 0x00, 0x00, 0x04, 0x04] ++ List.replicate 10 0x00
def blkT7 : Bytes := [0xA0, 0x00, 0x00, 0x00, 0x02, 0x02, 0x83, 0x32, 0x77] ++ List.replicate 7 0x00
def blkT8 : Bytes := [0x00, 0x00, 0x00, 0x00, 0x96, 0, 0, 0, 0, 0, 0, 0, 0x08, 0, 0, 0]
/-- 95 E3: `ENCODE 0, 1, "A"`. -/
def blkE3 : Bytes := [0xA8, 0x80, 0x00, 0x00, 0x02, 0x02, 0x82] ++ List.replicate 9 0x00
/-- 95 F3, F4: the two blocks of "ABCDEFGHIJK", and K1, the middle block of 25 letters. -/
def letters : Bytes := [0x41, 0x42, 0x43, 0x44, 0x45, 0x46, 0x47, 0x48, 0x49, 0x4A, 0x4B]
def blkK0 : Bytes := [0xC0, 0x00, 0x00, 0x00, 0x14, 0x00, 0x82, 0x84, 0xC3, 0x44, 0x45, 0x46, 0x47, 0x48, 0x49, 0x4A]
def blkF3 : Bytes := [0xC8, 0x80, 0x84, 0x00, 0x02, 0x02, 0x96] ++ List.replicate 9 0x00
def pktK0 : Packet := ⟨blkK0, 0, 10, 0⟩
def pktF3 : Packet := ⟨blkF3, 1, 1, 1⟩
/-- 95 X3, seven bytes: the all-zero block with positions 8, 16, 32 flipped, whose syndrome is outside the block. -/
def pktX3 : Packet := ⟨[0x00, 0x80, 0x80, 0x00, 0x80, 0x00, 0x00], 0, 0, 0⟩

def cmdBytes (bytes : Bytes) : Command := { Command.idle with bytes := bytes }
def cmdBits (bits : Bits) : Command := { Command.idle with bits := bits }
def cmdValue (value : Word) : Command := { Command.idle with value := value }
def cmdBlocks (blocks : List Bytes) : Command := { Command.idle with blocks := blocks }
def cmdEncode (index : Half) (flag : Byte) (payload : Bytes) : Command :=
  { Command.idle with index := index, flag := flag, bytes := payload }

/-! ### Well-formedness smoke: each check refuses an ill-formed command -/

theorem test_fits_refuses_byte2bits : Command.fits .t16 .byte2bits (cmdBytes []) = false := by decide
theorem test_fits_refuses_bits2byte : Command.fits .t16 .bits2byte (cmdBits [true]) = false := by decide
theorem test_fits_refuses_bytestoint16 : Command.fits .t16 .bytestoint16 (cmdBytes [1]) = false := by decide
theorem test_fits_refuses_bytestoint32 : Command.fits .t16 .bytestoint32 (cmdBytes [1, 2, 3]) = false := by decide
theorem test_fits_refuses_long_payload : Command.fits .t16 .encode (cmdEncode 0 1 letters) = false := by decide
theorem test_fits_refuses_flag : Command.fits .t16 .encode (cmdEncode 5 2 []) = false := by decide
theorem test_fits_refuses_block_size : Command.fits .t16 .parse (cmdBytes letters) = false := by decide
/-- 95 2.1: `DATA_BYTES = 6` leaves no payload byte, and a size field cannot hold more than 32767. -/
theorem test_sizes_refused : ¬Sizing.Admitted 6 ∧ ¬Sizing.Admitted 40000 := by decide
theorem test_sizes_admitted : Sizing.Admitted 7 ∧ Sizing.Admitted 8 ∧ Sizing.Admitted 4096 := by decide

/-! ### Decoding: the words of opcode_table.json, column "encoding" -/

theorem test_decode_utilities : decode [0b00000001#8] = .ok (.byte2bits, []) ∧ decode [0b00000010#8] = .ok (.bits2byte, []) ∧
    decode [0b00000011#8] = .ok (.int16tobytes, []) ∧ decode [0b00000100#8] = .ok (.bytestoint16, []) ∧
    decode [0b00000101#8] = .ok (.int32tobytes, []) ∧ decode [0b00000110#8] = .ok (.bytestoint32, []) := by decide
theorem test_decode_packet : decode [0b00010000#8] = .ok (.encode, []) ∧ decode [0b00010001#8] = .ok (.parse, []) ∧
    decode [0b00010010#8] = .ok (.syndrome, []) ∧ decode [0b00010011#8] = .ok (.parity, []) ∧
    decode [0b00010100#8] = .ok (.selfcorrect, []) ∧ decode [0b00010101#8] = .ok (.topayload, []) := by decide
theorem test_decode_fragmentation : decode [0b00100000#8] = .ok (.split, []) ∧ decode [0b00100001#8] = .ok (.join, []) := by
  decide
/-- 95 X1. -/
theorem test_decode_illegal : ∀ op ∈ [(0x00#8 : Byte), 0x07#8, 0x0F#8, 0x16#8, 0x1F#8, 0x22#8, 0x80#8, 0xFF#8],
    decode [op] = .error (.illegalOpcode op) := by decide
theorem test_decodeTableWord : decodeTableWord 8 0x15 = some .topayload ∧ decodeTableWord 8 0x00 = none := by decide
theorem test_withFetchWord_runs :
    nextSat (step (State.reset.withFetchWord 8 0x14)) (fun t => t.status == ⟨10, 0, 0⟩ && t.p == none) = true := by decide

/-! ### One step of each command -/

/-- UT2. -/
theorem test_byte2bits : leaves (exec .byte2bits (unit .t16 none (cmdBytes [0xA5]))) none ⟨0, 0, 0⟩
    { bits := some [true, false, true, false, false, true, false, true] } = true := by decide
/-- UT4. -/
theorem test_byte2bits_two : leaves (exec .byte2bits (unit .t16 none (cmdBytes [0x41, 0x42]))) none ⟨1, 0, 0⟩
    { err := 1 } = true := by decide
/-- UT5, UT6. -/
theorem test_bits2byte : leaves
    (exec .bits2byte (unit .t16 none (cmdBits [true, false, true, false, false, true, false, true]))) none ⟨0, 0, 0⟩
    { value := some 165 } = true := by decide
theorem test_bits2byte_seven : leaves
    (exec .bits2byte (unit .t16 none (cmdBits [true, false, true, false, false, true, false]))) none ⟨1, 0, 0⟩
    { err := 1 } = true := by decide
/-- UT8, with bits 31:16 set, which R85 ignores. -/
theorem test_int16tobytes : leaves (exec .int16tobytes (unit .t16 none (cmdValue 0x1234FFFE))) none ⟨0, 0, 0⟩
    { bytes := some [0xFF, 0xFE] } = true := by decide
/-- UT9. -/
theorem test_bytestoint16 : leaves (exec .bytestoint16 (unit .t16 none (cmdBytes [0x80, 0x00]))) none ⟨0, 0, 0⟩
    { value := some (-32768) } = true := by decide
/-- UT11. -/
theorem test_int32tobytes : leaves (exec .int32tobytes (unit .t16 none (cmdValue 305419896))) none ⟨0, 0, 0⟩
    { bytes := some [0x12, 0x34, 0x56, 0x78] } = true := by decide
/-- UT12. -/
theorem test_bytestoint32 : leaves (exec .bytestoint32 (unit .t16 none (cmdBytes [0x80, 0, 0, 0]))) none ⟨0, 0, 0⟩
    { value := some (-2147483648) } = true := by decide
/-- E5: a negative index. -/
theorem test_encode_negative_index : nextSat (exec .encode (unit .t16 none (cmdEncode (-2) 1 [0x00, 0xFF]))) (fun t =>
    t.p == some ⟨[0x17, 0xFF, 0x78, 0x00, 0x04, 0x02, 0x01, 0xFE] ++ List.replicate 8 0, -2, 2, 1⟩) = true := by
  decide +kernel
/-- E10: both checks would fail. -/
theorem test_encode_size_before_flag : leaves (exec .encode (unit .t16 (some pktB0) (cmdEncode 0 2 letters))) (some pktB0)
    ⟨2, 0, 0⟩ { err := 2 } = true := by decide +kernel
/-- S11 as loaded: no validation, the index is read from the corrupted block. -/
theorem test_parse : leaves (exec .parse (unit .t16 none (cmdBytes blkS11))) (some ⟨blkS11, 3, 10, 0⟩) ⟨0, 0, 0⟩
    { index := some 3, size := some 10, flag := some 0 } = true := by decide +kernel
/-- P2. -/
theorem test_parse_short : leaves (exec .parse (unit .t16 (some pktB0) (cmdBytes (blkB0.take 15)))) (some pktB0) ⟨4, 0, 0⟩
    { err := 4 } = true := by decide +kernel
/-- S6. -/
theorem test_syndrome : leaves (exec .syndrome (unit .t16 (some { pktB0 with block := blkS6 }) Command.idle))
    (some { pktB0 with block := blkS6 }) ⟨0, 0, 0⟩ { value := some 77 } = true := by decide +kernel
/-- S2. -/
theorem test_parity : leaves (exec .parity (unit .t16 (some { pktB0 with block := blkS2 }) Command.idle))
    (some { pktB0 with block := blkS2 }) ⟨0, 0, 0⟩ { value := some 1 } = true := by decide +kernel
/-- S11: a miscorrection, and the cache is not refreshed. -/
theorem test_selfcorrect_miscorrects :
    leaves (exec .selfcorrect (unit .t16 (some { pktB0 with block := blkS11 }) Command.idle))
      (some { pktB0 with block := [0x29, 0x00] ++ blkB0.drop 2 }) ⟨0, 1, 7⟩ { outcome := some (1, 7) } = true := by
  decide +kernel
/-- X3: on seven bytes the syndrome 56 is outside the block. -/
theorem test_selfcorrect_bounds : leaves (exec .selfcorrect (unit .t7 (some pktX3) Command.idle)) (some pktX3) ⟨8, 0, 0⟩
    { err := 8 } = true := by decide +kernel
/-- T8: the corrected bit is kept though the size check fails. -/
theorem test_topayload_size_after_correction :
    leaves (exec .topayload (unit .t16 (some ⟨blkT8, 0, 11, 0⟩) Command.idle)) (some ⟨blkT1, 0, 11, 0⟩) ⟨5, 1, 100⟩
      { err := 5 } = true := by decide +kernel
/-- T7: padding is ignored. -/
theorem test_topayload_padding : leaves (exec .topayload (unit .t16 (some ⟨blkT7, 9, 9, 9⟩) Command.idle))
    (some ⟨blkT7, 0, 1, 1⟩) ⟨0, 0, 0⟩ { bytes := some [0x41], index := some 0, size := some 1, flag := some 1 } = true := by
  decide +kernel
/-- F3. -/
theorem test_split : leaves (exec .split (unit .t16 none (cmdBytes letters))) (some pktF3) ⟨0, 0, 0⟩
    { blocks := some [blkK0, blkF3] } = true := by decide +kernel
/-- R154's example, with a block that is no block after the final one (J10). -/
theorem test_join : leaves (exec .join (unit .t16 none (cmdBlocks [blkK0, blkF3, [0x78, 0x78]]))) (some pktF3) ⟨0, 0, 0⟩
    { bytes := some letters } = true := by decide +kernel
/-- J5's kind: the index test comes after the cache refresh. -/
theorem test_join_index : leaves (exec .join (unit .t16 none (cmdBlocks [blkF3]))) (some pktF3) ⟨7, 0, 0⟩ { err := 7 } =
    true := by decide +kernel

/-! ### Witnesses: what each statement assumes can hold -/

/-- A unit with pending host actions. -/
def waiting (p : Option Packet) (pending : List HostAction) : State :=
  { State.reset with cfg := .t16, p := p, pending := pending }

theorem witness_ResetActionRestoresResetValues : (waiting (some pktB0) [.reset]).pending = .reset :: [] := rfl

theorem witness_DecodingReadsExactlyTheEncodedWord : decode [0x21, 0x00] = .ok (.join, [0x00]) := by decide

theorem witness_StepRunsTheDecodedCommand :
    (waiting none [.command { Command.idle with op := 0x15 }]).pending = .command { Command.idle with op := 0x15 } :: [] ∧
      decode [0x15] = .ok (.topayload, []) ∧ ∀ j r, decode [0x16] ≠ .ok (j, r) :=
  ⟨rfl, rfl, fun _ _ h => nomatch h⟩

theorem witness_IllegalOpcodes : ∀ op ∈ [(0x00#8 : Byte), 0x07#8, 0x0F#8, 0x16#8, 0x1F#8, 0x22#8, 0xFF#8],
    (op.toNat = 0x00 ∨ (0x07 ≤ op.toNat ∧ op.toNat ≤ 0x0F) ∨ (0x16 ≤ op.toNat ∧ op.toNat ≤ 0x1F) ∨ 0x22 ≤ op.toNat) := by
  decide

theorem witness_DecodeSideCommandsNeedAPacket :
    (unit .t16 none Command.idle).p = none ∧ Instr.parity ∈ [Instr.syndrome, .parity, .selfcorrect, .topayload] := by decide

theorem witness_SetBitWritesOnePosition : 127 < 8 * blkB0.length ∧ 8 * blkB0.length ≤ 128 := by decide

theorem witness_FlipBitXorsOneByte : blkB0[127 / 8]? = some 0x39 ∧ getBit blkB0 127 = .ok true ∧ 8 * blkB0.length ≤ 128 := by
  decide

theorem witness_ContentIndex : cpos .t16 0 = some 3 ∧ cpos .t16 119 = some 127 := by decide +kernel

theorem witness_Byte2Bits : (unit .t16 none (cmdBytes [0xA5])).cmd.bytes = [0xA5] ∧
    (unit .t16 none (cmdBytes [])).cmd.bytes.length ≠ 1 := by decide

theorem witness_Bits2Byte : (unit .t16 none (cmdBits (List.replicate 8 true))).cmd.bits.length = 8 ∧
    (unit .t16 none (cmdBits (List.replicate 9 true))).cmd.bits.length ≠ 8 := by decide

theorem witness_BytesToInt16 : (unit .t16 none (cmdBytes [0x80, 0x00])).cmd.bytes = [0x80, 0x00] ∧
    (unit .t16 none (cmdBytes [0x01])).cmd.bytes.length ≠ 2 := by decide

theorem witness_BytesToInt32 : (unit .t16 none (cmdBytes [0x80, 0, 0, 0])).cmd.bytes = [0x80, 0, 0, 0] ∧
    (unit .t16 none (cmdBytes [0x01])).cmd.bytes.length ≠ 4 := by decide

theorem witness_ConversionsAreInverse : ([true, false, true, false, false, true, false, true] : Bits).length = 8 ∧
    ([0xFF, 0xFE] : Bytes).length = 2 ∧ ([0x12, 0x34, 0x56, 0x78] : Bytes).length = 4 := by decide

theorem witness_ConversionsKeepOrder : ((0 ≤ (-32768 : Half).toInt ↔ 0 ≤ (-1 : Half).toInt)) ∧
    ((0 ≤ (0 : Word).toInt ↔ 0 ≤ (256 : Word).toInt)) ∧ (-1 : Half).toInt < 0 ∧ 0 ≤ (0 : Half).toInt := by decide

theorem witness_EncodeLoadsPacketOrRejects :
    ((unit .t16 none (cmdEncode 3 0 digits)).cmd.bytes.length ≤ Config.t16.dataBytesValid ∧
      ((0 : Byte) = 0 ∨ (0 : Byte) = 1)) ∧
    Config.t16.dataBytesValid < (unit .t16 none (cmdEncode 0 1 letters)).cmd.bytes.length ∧
    ((unit .t16 none (cmdEncode 5 2 digits)).cmd.bytes.length ≤ Config.t16.dataBytesValid ∧ (2 : Byte) ≠ 0 ∧
      (2 : Byte) ≠ 1) := by decide

/-- B0 is encoded, in any statement about an encoded block. -/
theorem witness_Encoded : Encoded .t16 pktB0 digits := by decide +kernel

theorem witness_EncodedContentFollowsTheLayout :
    encodeFn .t16 3 0 digits = .ok pktB0 ∧ cpos .t16 40 = some 47 ∧ cpos .t16 119 = some 127 := by decide +kernel

theorem witness_EncodedBlocksAreValidCodewords : encodeFn .t16 3 0 digits = .ok pktB0 := by decide +kernel

theorem witness_EncodedParityBitsAreGroupParities : encodeFn .t16 3 0 digits = .ok pktB0 ∧ 6 < Config.t16.kPar := by
  decide +kernel

theorem witness_DistinctCodewords : blkB0.length = blkK0.length ∧ blkB0 ≠ blkK0 ∧ ValidCodeword blkB0 ∧
    ValidCodeword blkK0 := by decide +kernel

theorem witness_AllOneBlock : (unit .t16 (some ⟨List.replicate 16 0xFF, -1, -1, 255⟩) Command.idle).p =
      some ⟨List.replicate 16 0xFF, -1, -1, 255⟩ ∧ Config.t16.nBits = 2 ^ 7 ∧
    (List.replicate 16 0xFF : Bytes) = List.replicate Config.t16.dataBytes 0xFF := by decide

theorem witness_ParseLoadsTheUncorrectedBlock :
    (unit .t16 none (cmdBytes blkS8)).cmd.bytes.length = Config.t16.dataBytes ∧ cpos .t16 39 = some 46 ∧
      (unit .t16 none (cmdBytes (blkS8.take 15))).cmd.bytes.length ≠ Config.t16.dataBytes := by decide +kernel

theorem witness_ParseOfAnEncodedBlock :
    Encoded .t16 pktB0 digits ∧ (unit .t16 none (cmdBytes blkB0)).cmd.bytes = pktB0.block := by decide +kernel

theorem witness_SyndromeAndParity : (unit .t16 (some pktB0) Command.idle).p = some pktB0 ∧
    (unit .t16 none Command.idle).p = none := by decide

theorem blockWf_of {cfg : Config} {pkt : Packet} {cmd : Command} (h : Memory.wf cfg pkt.block = true) :
    (unit cfg (some pkt) cmd).BlockWf := by
  intro p hp; cases hp; exact h

/-- The four clauses of the decision tree: B0, S6, X3 on seven bytes, S8. -/
theorem witness_SelfCorrectFollowsTheDecisionTree :
    (unit .t16 (some pktB0) Command.idle).BlockWf ∧ (unit .t7 (some pktX3) Command.idle).BlockWf ∧
    Channel.xorOf (setPositions blkB0) = 0 ∧
    (Channel.xorOf (setPositions blkS6) ≠ 0 ∧ (setPositions blkS6).length % 2 = 1 ∧
      Channel.xorOf (setPositions blkS6) < Config.t16.nBits) ∧
    (Channel.xorOf (setPositions pktX3.block) ≠ 0 ∧ (setPositions pktX3.block).length % 2 = 1 ∧
      Config.t7.nBits ≤ Channel.xorOf (setPositions pktX3.block)) ∧
    (Channel.xorOf (setPositions blkS8) ≠ 0 ∧ ¬(setPositions blkS8).length % 2 = 1) :=
  ⟨blockWf_of (by decide), blockWf_of (by decide), by decide +kernel⟩

theorem witness_SelfCorrectRepairsASingleFlip : Encoded .t16 pktB0 digits ∧
    Channel.corrupt pktB0.block [77] = .ok blkS6 ∧ 1 ≤ 77 ∧
    (unit .t16 (some { pktB0 with block := blkS6 }) Command.idle).p = some { pktB0 with block := blkS6 } := by
  decide +kernel

theorem witness_GlobalParityFlip : Encoded .t16 pktB0 digits ∧ Channel.corrupt pktB0.block [0] = .ok blkS2 := by
  decide +kernel

theorem witness_AnyDoubleFlipIsDetected : Encoded .t16 pktB0 digits ∧ 5 ≠ 9 ∧
    Channel.corrupt pktB0.block [5, 9] = .ok blkS8 := by decide +kernel

/-- The rows of R127: S8 (even), S11 (odd, miscorrected), and the flips of S10, whose positions cancel. -/
theorem witness_FlipTableOfTheDecoder : Encoded .t16 pktB0 digits ∧ [1, 2, 4].Nodup ∧
    Channel.corrupt pktB0.block [1, 2, 4] = .ok blkS11 ∧ Channel.xorOf [1, 2, 4] = 7 ∧ 7 < Config.t16.nBits ∧
    Channel.xorOf [5, 9] ≠ 0 ∧ [5, 9].length % 2 = 0 ∧ [1, 2, 3].Nodup ∧ Channel.xorOf [1, 2, 3] = 0 ∧
    (Channel.corrupt pktB0.block [1, 2, 3]).toOption.isSome := by decide +kernel

/-- The last clause: on seven bytes the positions 8, 16, 32 of the all-zero block, whose exclusive-or is 56 (95 X3). -/
theorem witness_FlipTableOfTheDecoder_outside : Encoded .t7 ⟨List.replicate 7 0, 0, 0, 0⟩ [] ∧ [8, 16, 32].Nodup ∧
    Channel.corrupt (List.replicate 7 0) [8, 16, 32] = .ok pktX3.block ∧ Channel.xorOf [8, 16, 32] ≠ 0 ∧
    [8, 16, 32].length % 2 = 1 ∧ Config.t7.nBits ≤ Channel.xorOf [8, 16, 32] := by decide +kernel

theorem witness_SelfCorrectIsIdempotent :
    (unit .t16 (some { pktB0 with block := blkS6 }) Command.idle).BlockWf ∧
    ∃ t, exec .selfcorrect (unit .t16 (some { pktB0 with block := blkS6 }) Command.idle) = .next t ∧
      t.status.err = 0 ∧ t.status.outcome = 1 :=
  ⟨blockWf_of (by decide), _, rfl, by decide +kernel⟩

theorem witness_CorrectionChangesOnlyTheReportedBit :
    ∃ t, exec .topayload (unit .t16 (some { pktB0 with block := blkS6 }) Command.idle) = .next t ∧
      t.status.outcome = 1 ∧ t.status.pos = 77 := ⟨_, rfl, by decide +kernel⟩

theorem witness_NoBoundsErrorAtPowerOfTwoSizes : (unit .t16 (some pktB0) Command.idle).BlockWf ∧
    Config.t16.nBits = 2 ^ 7 ∧ Config.hardware.nBits = 2 ^ 15 ∧
    ∃ t, exec .topayload (unit .t16 (some pktB0) Command.idle) = .next t :=
  ⟨blockWf_of (by decide), by decide, by decide, _, rfl⟩

theorem witness_ToPayloadReturnsThePayload : (unit .t16 (some { pktB0 with block := blkS6 }) Command.idle).BlockWf ∧
    selfCorrectFn blkS6 = .ok (blkB0, .corrected 77) ∧ CorrectionOutcome.corrected 77 ≠ .uncorrectableDoubleError ∧
    readHeader (stripParity blkB0) = .ok ⟨3, 10, 0⟩ ∧ 0 ≤ (10 : Half).toInt ∧
    (10 : Half).toInt ≤ Config.t16.dataBytesValid :=
  ⟨blockWf_of (by decide), by decide +kernel⟩

/-- The clauses: X3 on seven bytes, S8, T8 for the size, a negative size (the all-ones block), T3 for the flag. -/
theorem witness_ToPayloadFailsInOrder : (unit .t16 (some ⟨blkT8, 0, 11, 0⟩) Command.idle).BlockWf ∧
    (unit .t16 (some ⟨blkT3, 0, 2, 2⟩) Command.idle).BlockWf ∧ (unit .t7 (some pktX3) Command.idle).BlockWf ∧
    selfCorrectFn pktX3.block = .error .boundsError ∧ selfCorrectFn blkS8 = .ok (blkS8, .uncorrectableDoubleError) ∧
    (selfCorrectFn blkT8 = .ok (blkT1, .corrected 100) ∧ readHeader (stripParity blkT1) = .ok ⟨0, 11, 0⟩ ∧
      (Config.t16.dataBytesValid : Int) < (11 : Half).toInt) ∧
    (readHeader (stripParity (List.replicate 16 0xFF)) = .ok ⟨-1, -1, 255⟩ ∧ (-1 : Half).toInt < 0) ∧
    (selfCorrectFn blkT3 = .ok (blkT3, .noErrorFound) ∧ readHeader (stripParity blkT3) = .ok ⟨0, 2, 2⟩ ∧
      (2 : Byte) ≠ 0 ∧ (2 : Byte) ≠ 1) :=
  ⟨blockWf_of (by decide), blockWf_of (by decide), blockWf_of (by decide), by decide +kernel⟩

theorem witness_ToPayloadInvertsEncode : (unit .t16 none (cmdEncode 3 0 digits)).cmd.bytes.length ≤
    Config.t16.dataBytesValid ∧ (unit .t16 none (cmdEncode 3 0 digits)).cmd.flag = 0 := by decide

theorem witness_RoundTripSurvivesOneFlip : Encoded .t16 pktB0 digits ∧
    Channel.corrupt pktB0.block [77] = .ok (unit .t16 none (cmdBytes blkS6)).cmd.bytes ∧
    Channel.corrupt pktB0.block [0] = .ok (unit .t16 none (cmdBytes blkS2)).cmd.bytes := by decide +kernel

/-- T7 and E3 differ in the padding only (and in the parity bits that protect it). -/
theorem witness_PaddingIsNotRead : (unit .t16 (some ⟨blkT7, 0, 1, 1⟩) Command.idle).BlockWf ∧
    (unit .t16 (some ⟨blkE3, 0, 1, 1⟩) Command.idle).BlockWf ∧
    Channel.xorOf (setPositions blkT7) = 0 ∧ Channel.xorOf (setPositions blkE3) = 0 ∧
    readHeader (stripParity blkT7) = .ok ⟨0, 1, 1⟩ ∧
    (stripParity blkT7).take (40 + 8 * 1) = (stripParity blkE3).take (40 + 8 * 1) ∧ blkT7 ≠ blkE3 :=
  ⟨blockWf_of (by decide), blockWf_of (by decide), by decide +kernel⟩

theorem witness_SuccessfulDecodeLeavesHeaderInRange :
    (unit .t16 (some { pktB0 with block := blkS6 }) Command.idle).BlockWf ∧
    ∃ t, exec .topayload (unit .t16 (some { pktB0 with block := blkS6 }) Command.idle) = .next t ∧
      t.status.err = 0 ∧ t.p = some pktB0 := ⟨blockWf_of (by decide), _, rfl, by decide +kernel⟩

theorem witness_SplitEncodesEachChunk :
    max 1 ((letters.length + Config.t16.dataBytesValid - 1) / Config.t16.dataBytesValid) = 2 ∧
    32768 < max 1 (((List.replicate 327681 (0 : Byte)).length + Config.t16.dataBytesValid - 1) /
      Config.t16.dataBytesValid) := by
  refine ⟨by decide, ?_⟩
  rw [List.length_replicate]; decide

theorem witness_ChunksConcatenate : 0 + 1 < chunkCount .t16 letters.length ∧ 1 ≤ letters.length := by decide

theorem witness_SplitMakesAFragmentSequence : splitFn .t16 letters = .ok [pktK0, pktF3] ∧
    digits.length = Config.t16.dataBytesValid ∧ letters.length = Config.t16.dataBytesValid + 1 ∧
    (splitFn .t16 []).toOption.isSome ∧ (splitFn .t16 digits).toOption.isSome := by decide +kernel

/-- The two fragments that SPLIT makes of eleven bytes. -/
def fragsF3 : List (Packet × Bytes) := [(pktK0, letters.take 10), (pktF3, letters.drop 10)]

/-- K0 with its position 21 (a bit of the index) flipped. -/
def blkK0flipped : Bytes := blkK0.set 2 (0x04#8 ^^^ blkK0.getD 2 0)

theorem fragsF3_encoded : Encoded .t16 pktK0 (letters.take 10) ∧ Encoded .t16 pktF3 (letters.drop 10) ∧
    Channel.corrupt pktK0.block [21] = .ok blkK0flipped := by decide +kernel

/-- All premises of the statement together: the first block has a flipped bit, and a block of no length follows. -/
theorem witness_JoinReassembles :
    fragsF3.getLast? = some (pktF3, letters.drop 10) ∧
    (∀ (k : Nat) (f : Packet × Bytes), fragsF3[k]? = some f → Encoded .t16 f.1 f.2 ∧ f.1.index.toInt = k ∧
      f.1.fragFlag = if k + 1 = fragsF3.length then 1 else 0) ∧
    List.Forall₂ (fun f blk => AtMostOneFlip f.1.block blk) fragsF3 [blkK0flipped, blkF3] ∧
    (unit .t16 none (cmdBlocks [blkK0flipped, blkF3, []])).cmd.blocks = [blkK0flipped, blkF3] ++ [[]] := by
  refine ⟨by decide, ?_, .cons (.inr ⟨21, fragsF3_encoded.2.2⟩) (.cons (.inl rfl) .nil), rfl⟩
  rintro (_ | _ | k) f h <;> cases h
  · exact ⟨fragsF3_encoded.1, by decide, by decide⟩
  · exact ⟨fragsF3_encoded.2.1, by decide, by decide⟩

theorem witness_JoinInvertsSplit : ∃ t, exec .split (unit .t16 none (cmdBytes letters)) = .next t ∧
    t.rsp = some { blocks := some [blkK0, blkF3] } := ⟨_, rfl, by decide +kernel⟩

theorem witness_JoinIgnoresBlocksAfterTheFinalOne :
    ∃ t, exec .join ((unit .t16 none Command.idle).withBlocks [blkK0, blkF3]) = .next t ∧ t.status.err = 0 :=
  ⟨_, rfl, by decide +kernel⟩

/-- Both clauses: the list ends after K0, and B0 (index 3) comes after K0. -/
theorem witness_JoinRaisesMissingFragment :
    (∀ (k : Nat) (f : Packet × Bytes), ([(pktK0, letters.take 10)] : List _)[k]? = some f →
      Encoded .t16 f.1 f.2 ∧ f.1.index.toInt = k ∧ f.1.fragFlag = 0) ∧
    (unit .t16 none (cmdBlocks [blkK0])).cmd.blocks =
      ([(pktK0, letters.take 10)] : List (Packet × Bytes)).map (·.1.block) ∧
    Encoded .t16 pktB0 digits ∧ pktB0.index.toInt ≠ ([(pktK0, letters.take 10)] : List (Packet × Bytes)).length ∧
    (unit .t16 none (cmdBlocks [blkK0, blkB0])).cmd.blocks =
      ([(pktK0, letters.take 10)] : List (Packet × Bytes)).map (·.1.block) ++ pktB0.block :: [] := by
  refine ⟨?_, rfl, witness_Encoded, by decide, rfl⟩
  rintro (_ | k) f h <;> cases h
  exact ⟨fragsF3_encoded.1, by decide, by decide⟩

/-- Each clause of the access table: a utility, a failed ENCODE, a loading JOIN, a failed TOPAYLOAD, SELFCORRECT. -/
theorem witness_RegistersChange :
    (∃ t, exec .parity (unit .t16 (some pktB0) Command.idle) = .next t) ∧
    (∃ t, exec .encode (unit .t16 (some pktB0) (cmdEncode 5 2 digits)) = .next t ∧ t.status.err ≠ 0) ∧
    (∃ t, exec .join (unit .t16 none (cmdBlocks [blkK0, blkF3])) = .next t ∧ t.status.err = 0) ∧
    (∃ t, exec .topayload (unit .t16 (some ⟨blkT8, 0, 11, 0⟩) Command.idle) = .next t ∧ t.status.err ≠ 0) ∧
    (∃ t, exec .selfcorrect (unit .t16 (some { pktB0 with block := blkS6 }) Command.idle) = .next t) :=
  ⟨⟨_, rfl⟩, ⟨_, rfl, by decide +kernel⟩, ⟨_, rfl, by decide +kernel⟩, ⟨_, rfl, by decide +kernel⟩, ⟨_, rfl⟩⟩

theorem witness_StepKeepsTheInvariant :
    (waiting none [.command { Command.idle with op := 0x10 }]).Inv ∧
    ∃ t, step (waiting none [.command { Command.idle with op := 0x10 }]) = .next t :=
  ⟨⟨fun _ h => (nomatch h), by decide, by decide, fun _ => rfl, fun h => (absurd h (by decide)), fun _ h => (nomatch h)⟩,
    _, rfl⟩

theorem witness_CommandsMove : ∃ t, exec .encode (unit .t16 none (cmdEncode 3 0 digits)) = .next t ∧
    t.status.err = 0 := ⟨_, rfl, by decide +kernel⟩

theorem witness_EveryCommandWritesErr : ∃ t, step (waiting none [.command { Command.idle with op := 0x15 }]) = .next t ∧
    t.status.err = 10 := ⟨_, rfl, by decide⟩

theorem witness_UnusedOperandFields : SameOperands .encode (cmdEncode 3 0 digits)
    { cmdEncode 3 0 digits with op := 0x10, bits := [true], value := 5, blocks := [[]] } := ⟨rfl, rfl, rfl⟩

theorem witness_UnitsShareNothing :
    ∃ sys1 sys2, (0 : Nat) ≠ 1 ∧
      System.stepUnit [waiting none [.reset], waiting (some pktB0) [.reset]] 0 = .next sys1 ∧
      System.stepUnit [waiting none [.reset], waiting (some pktB0) [.reset]] 1 = .next sys2 :=
  ⟨_, _, by decide, rfl, rfl⟩

end Sys2Proof.Tests
end

/-! The derived sizes of a configuration (00_scope.md R6). -/

namespace Sys2Proof.Machine

/-- `K_PAR` counts the powers of two below `N_BITS` (R6). -/
theorem Config.lt_kPar_iff (cfg : Config) (k : Nat) : k < cfg.kPar ↔ 2 ^ k < cfg.nBits := by
  refine ⟨Config.two_pow_lt cfg k, fun h => ?_⟩
  exact (Nat.pow_lt_pow_iff_right Nat.one_lt_two).mp (h.trans_le (Config.nBits_le cfg))

/-- Content, overall parity and group parities fill the codeword (R6): no subtraction in `CONTENT_BITS` is cut at 0. -/
theorem Config.contentBits_add (cfg : Config) : cfg.contentBits + 1 + cfg.kPar = cfg.nBits := by
  have hdef : cfg.contentBits = cfg.nBits - 1 - cfg.kPar := rfl
  have hfit := Config.content_fits cfg
  have hheader : headerBytes = 5 := rfl
  omega

/-- Header and payload fill the content bytes (R6): an admitted size leaves room for the header. -/
theorem Config.dataBytesValid_add (cfg : Config) : cfg.dataBytesValid + 5 = cfg.contentBytes := by
  have hdef : cfg.dataBytesValid = cfg.contentBytes - 5 := rfl
  have hroom : 1 ≤ cfg.dataBytesValid := cfg.admitted.1
  omega

/-- `POS_BITS` is the least width that holds every position (R6): `ceil(log2(N_BITS))`. -/
theorem Config.posBits_le_iff (cfg : Config) (k : Nat) : cfg.posBits ≤ k ↔ cfg.nBits ≤ 2 ^ k := by
  have hpos := Config.nBits_ge cfg
  have hdef : cfg.posBits =
      if 2 ^ Nat.log2 cfg.nBits = cfg.nBits then Nat.log2 cfg.nBits else Nat.log2 cfg.nBits + 1 := rfl
  rw [hdef]
  split
  case isTrue hpow =>
    rw [← Nat.pow_le_pow_iff_right Nat.one_lt_two, hpow]
  case isFalse hpow =>
    have hne : cfg.nBits ≠ 2 ^ k := fun h => hpow (by rw [h, Nat.log2_two_pow])
    rw [Nat.succ_le_iff, Nat.log2_lt (by omega)]
    omega

/-- Settles O1: each size from its lemma over every configuration; the hardware's values by evaluation. -/
theorem hardwareHasTheDerivedSizes : Obligations.HardwareHasTheDerivedSizes := by
  unfold Obligations.HardwareHasTheDerivedSizes
  constructor
  · intro cfg
    exact ⟨rfl, Config.lt_kPar_iff cfg, rfl, Config.contentBits_add cfg, contentPositions_length cfg, rfl,
      Config.dataBytesValid_add cfg, Config.posBits_le_iff cfg⟩
  · decide

end Sys2Proof.Machine

/-! ### What a command can do (one inversion lemma for all of `exec`)

Every command ends in `State.finish`: it brings the unit to a working state, with a response or an error, and that is
then answered. `Works s i s1 r` says which working states `s1` and results `r` the command `i` can reach from `s`. -/

namespace Sys2Proof.Machine

theorem Memory.wf_iff (cfg : Config) (m : Memory) : Memory.wf cfg m = true ↔ m.length = cfg.dataBytes := by
  simp [Memory.wf]

/-! ### Answering -/

@[simp] theorem State.finish_cfg (s : State) (r : Except Err Response) : (s.finish r).cfg = s.cfg := by
  cases r <;> rfl

@[simp] theorem State.finish_p (s : State) (r : Except Err Response) : (s.finish r).p = s.p := by
  cases r <;> rfl

@[simp] theorem State.finish_cmd (s : State) (r : Except Err Response) : (s.finish r).cmd = s.cmd := by
  cases r <;> rfl

@[simp] theorem State.finish_pending (s : State) (r : Except Err Response) : (s.finish r).pending = s.pending := by
  cases r <;> rfl

@[simp] theorem State.finish_outcome (s : State) (r : Except Err Response) :
    (s.finish r).status.outcome = s.status.outcome := by
  cases r <;> rfl

@[simp] theorem State.finish_pos (s : State) (r : Except Err Response) :
    (s.finish r).status.pos = s.status.pos := by
  cases r <;> rfl

/-- STATUS.ERR is 0 after a success, and only then (10 R27, 60 R170). -/
theorem State.finish_err_eq_zero (s : State) (r : Except Err Response) :
    (s.finish r).status.err = 0 ↔ ∃ rsp, r = .ok rsp := by
  cases r with
  | ok rsp => simp
  | error e => simpa using (Err.code_bounds e).1

/-- After every answer the response port agrees with STATUS.ERR, and an error leaves no result field (10 R29,
60 R184). -/
theorem State.finish_rsp (s : State) (r : Except Err Response) :
    ∃ rsp, (s.finish r).rsp = some rsp ∧ rsp.err = (s.finish r).status.err ∧
      (rsp.err ≠ 0 → rsp = { err := rsp.err }) := by
  cases r with
  | ok rsp => exact ⟨_, rfl, rfl, fun h => absurd rfl h⟩
  | error e => exact ⟨_, rfl, rfl, fun _ => rfl⟩

/-! ### The packets that the loading commands make -/

/-- The header cache equals the header bits of the block (10 R33). -/
def Packet.CacheAgrees (pkt : Packet) : Prop :=
  readHeader (stripParity pkt.block) = .ok { index := pkt.index, size := pkt.size, fragFlag := pkt.fragFlag }

/-- What ENCODE, PARSE and SPLIT load: a whole block, with the header it holds. -/
structure Packet.Fresh (cfg : Config) (pkt : Packet) : Prop where
  length : pkt.block.length = cfg.dataBytes
  cache : pkt.CacheAgrees

theorem encodeFn_fresh {cfg : Config} {index : Half} {flag : Byte} {payload : Bytes} {pkt : Packet}
    (h : encodeFn cfg index flag payload = .ok pkt) : pkt.Fresh cfg := by
  obtain ⟨hlen, -, rfl, hsize, rfl, hblock⟩ := encodeFn_inv h
  obtain ⟨hblen, -, -, hstrip⟩ := protect_spec cfg _ (buildContent_length cfg pkt.index _ pkt.fragFlag payload hlen)
  refine ⟨by rw [hblock, hblen], ?_⟩
  rw [Packet.CacheAgrees, hblock, hstrip, readHeader_buildContent, hsize]

theorem parseFn_fresh {cfg : Config} {bytes : Bytes} {pkt : Packet} (h : parseFn cfg bytes = .ok pkt) :
    pkt.Fresh cfg := by
  rcases parseFn_cases cfg bytes with ⟨-, h'⟩ | ⟨hlen, hd, hhd, h'⟩ <;> rw [h] at h' <;> cases h'
  exact ⟨hlen, hhd⟩

/-- SPLIT encodes at least one packet, so it always has a last one to load (44 R154). -/
theorem splitFn_getLast? {cfg : Config} {payload : Bytes} {pkts : List Packet}
    (h : splitFn cfg payload = .ok pkts) : ∃ pkt, pkts.getLast? = some pkt ∧ pkt.Fresh cfg := by
  rcases splitFn_cases cfg payload with ⟨-, h'⟩ | ⟨-, pkts', h', hlen, hget⟩ <;> rw [h] at h' <;> cases h'
  have hpos : 1 ≤ chunkCount cfg payload.length := Nat.le_max_left 1 _
  obtain ⟨pkt, henc, hpkt⟩ := hget (chunkCount cfg payload.length - 1) (by omega)
  exact ⟨pkt, by rw [List.getLast?_eq_getElem?, hlen, hpkt], encodeFn_fresh henc⟩

/-! ### The inversion lemma -/

/-- The working states and results that a command can reach, before it answers. -/
inductive Works (s : State) : Instr → State → Except Err Response → Prop
  /-- The utilities, SYNDROME and PARITY only compute a result. -/
  | answered {i : Instr} {r : Except Err Response}
      (hi : i ∈ [Instr.byte2bits, .bits2byte, .int16tobytes, .bytestoint16, .int32tobytes, .bytestoint32, .syndrome,
        .parity]) : Works s i s r
  /-- A command that fails before it has touched a register. -/
  | failed {i : Instr} {e : Err} (hi : i ∈ [Instr.encode, .parse, .split, .selfcorrect, .topayload]) :
      Works s i s (.error e)
  /-- ENCODE, PARSE and SPLIT load a packet. -/
  | loaded {i : Instr} {pkt : Packet} {r : Response} (hi : i ∈ [Instr.encode, .parse, .split])
      (hpkt : pkt.Fresh s.cfg) : Works s i (s.load pkt) (.ok r)
  /-- SELFCORRECT replaces the block and records the outcome. -/
  | corrected {pkt : Packet} {b : Memory} {o : CorrectionOutcome} {r : Response} (hp : s.p = some pkt)
      (hb : selfCorrectFn pkt.block = .ok (b, o)) :
      Works s .selfcorrect ((s.load { pkt with block := b }).recordOutcome o) (.ok r)
  /-- TOPAYLOAD is `toPayloadStep` on the packet in P. -/
  | decoded {pkt : Packet} (hp : s.p = some pkt) :
      Works s .topayload (toPayloadStep s pkt).1
        ((toPayloadStep s pkt).2.map fun x => x.1.headerResponse (some x.2))
  /-- JOIN is `joinLoop` from the first fragment on. -/
  | joined : Works s .join (joinLoop 0 [] s.cmd.blocks s).1
      ((joinLoop 0 [] s.cmd.blocks s).2.map fun payload => { bytes := some payload })

/-- Every command has a next state, and this is all it can be. -/
theorem exec_works (i : Instr) (s : State) : ∃ s1 r, exec i s = .next (s1.finish r) ∧ Works s i s1 r := by
  cases i with
  | byte2bits => exact ⟨s, _, rfl, .answered (by decide)⟩
  | bits2byte => exact ⟨s, _, rfl, .answered (by decide)⟩
  | int16tobytes => exact ⟨s, .ok _, rfl, .answered (by decide)⟩
  | bytestoint16 => exact ⟨s, _, rfl, .answered (by decide)⟩
  | int32tobytes => exact ⟨s, .ok _, rfl, .answered (by decide)⟩
  | bytestoint32 => exact ⟨s, _, rfl, .answered (by decide)⟩
  | encode =>
    cases h : encodeFn s.cfg s.cmd.index s.cmd.flag s.cmd.bytes with
    | error e => exact ⟨s, .error e, by simp only [exec, execEncode, h, State.finish_error], .failed (by decide)⟩
    | ok pkt =>
      exact ⟨s.load pkt, .ok _, by simp only [exec, execEncode, h]; rfl, .loaded (by decide) (encodeFn_fresh h)⟩
  | parse =>
    cases h : parseFn s.cfg s.cmd.bytes with
    | error e => exact ⟨s, .error e, by simp only [exec, execParse, h, State.finish_error], .failed (by decide)⟩
    | ok pkt => exact ⟨s.load pkt, .ok _, by simp only [exec, execParse, h]; rfl, .loaded (by decide) (parseFn_fresh h)⟩
  | syndrome =>
    rcases State.withPacket_cases s fun pkt => s.respond { value := some (syndrome (unpack pkt.block)) } with
      ⟨pkt, -, h⟩ | ⟨-, h⟩
    · exact ⟨s, .ok _, congrArg Host.Outcome.next h, .answered (by decide)⟩
    · exact ⟨s, .error _, congrArg Host.Outcome.next h, .answered (by decide)⟩
  | parity =>
    rcases State.withPacket_cases s fun pkt => s.respond { value := some (totalParity (unpack pkt.block)).toNat } with
      ⟨pkt, -, h⟩ | ⟨-, h⟩
    · exact ⟨s, .ok _, congrArg Host.Outcome.next h, .answered (by decide)⟩
    · exact ⟨s, .error _, congrArg Host.Outcome.next h, .answered (by decide)⟩
  | selfcorrect =>
    cases hp : s.p with
    | none =>
      exact ⟨s, .error .noPacket, by simp only [exec, execSelfcorrect, State.withPacket, hp, State.finish_error],
        .failed (by decide)⟩
    | some pkt =>
      cases h : selfCorrectFn pkt.block with
      | error e =>
        exact ⟨s, .error e, by simp only [exec, execSelfcorrect, State.withPacket, hp, h, State.finish_error],
          .failed (by decide)⟩
      | ok bo =>
        exact ⟨_, .ok _, by simp only [exec, execSelfcorrect, State.withPacket, hp, h]; rfl, .corrected hp h⟩
  | topayload =>
    cases hp : s.p with
    | none =>
      exact ⟨s, .error .noPacket, by simp only [exec, execTopayload, State.withPacket, hp, State.finish_error],
        .failed (by decide)⟩
    | some pkt =>
      refine ⟨_, _, ?_, .decoded hp⟩
      simp only [exec, execTopayload, State.withPacket, hp]
      rcases toPayloadStep s pkt with ⟨s1, e | ⟨pkt', payload⟩⟩ <;> rfl
  | split =>
    cases h : splitFn s.cfg s.cmd.bytes with
    | error e => exact ⟨s, .error e, by simp only [exec, execSplit, h, State.finish_error], .failed (by decide)⟩
    | ok pkts =>
      obtain ⟨pkt, hlast, hfresh⟩ := splitFn_getLast? h
      exact ⟨s.load pkt, .ok _, by simp only [exec, execSplit, h, State.loadLast_of_getLast? hlast]; rfl,
        .loaded (by decide) hfresh⟩
  | join =>
    refine ⟨_, _, ?_, .joined⟩
    simp only [exec, execJoin]
    rcases joinLoop 0 [] s.cmd.blocks s with ⟨s1, e | payload⟩ <;> rfl

/-- Inversion of `exec`. -/
theorem exec_inv {i : Instr} {s t : State} (h : exec i s = .next t) : ∃ s1 r, t = s1.finish r ∧ Works s i s1 r := by
  obtain ⟨s1, r, hexec, hw⟩ := exec_works i s
  rw [h] at hexec
  exact ⟨s1, r, by injection hexec, hw⟩

end Sys2Proof.Machine

/-! ### The invariant of a unit -/

namespace Sys2Proof.Machine

/-- Loading a whole block keeps the invariant (10 R21). -/
theorem State.Inv.load {s : State} (hs : s.Inv) {pkt : Packet} (h : pkt.block.length = s.cfg.dataBytes) :
    (s.load pkt).Inv where
  block := by rintro _ ⟨⟩; exact (Memory.wf_iff _ _).mpr h
  err := hs.err
  outcome := hs.outcome
  posZero := hs.posZero
  posRange := hs.posRange
  rsp := hs.rsp

/-- Recording an outcome keeps the invariant when a corrected position lies in the block and is not 0 (10 R28). -/
theorem State.Inv.recordOutcome {s : State} (hs : s.Inv) {o : CorrectionOutcome}
    (h : ∀ p, o = .corrected p → 1 ≤ p ∧ p < s.cfg.nBits) : (s.recordOutcome o).Inv where
  block := hs.block
  err := hs.err
  outcome := o.code_cases.1
  posZero := o.code_cases.2.1
  posRange ho := h _ (o.code_cases.2.2 ho)
  rsp := hs.rsp

/-- Answering keeps the invariant: ERR and the response are written together (10 R29, 60 R170). -/
theorem State.Inv.finish {s : State} (hs : s.Inv) (r : Except Err Response) : (s.finish r).Inv where
  block := by simpa [State.BlockWf] using hs.block
  err := by
    cases r with
    | ok rsp => exact Nat.zero_le _
    | error e => exact e.code_bounds.2
  outcome := by simpa using hs.outcome
  posZero := by simpa using hs.posZero
  posRange := by simpa using hs.posRange
  rsp := by
    obtain ⟨rsp, hrsp, hok⟩ := s.finish_rsp r
    intro _ h
    rw [hrsp] at h
    cases h
    exact hok

theorem State.Inv.present {s : State} (hs : s.Inv) (c : Command) (rest : List HostAction) : (s.present c rest).Inv :=
  ⟨hs.block, hs.err, hs.outcome, hs.posZero, hs.posRange, hs.rsp⟩

/-- A reset makes the invariant true, whatever the state was (70 R200). -/
theorem State.applyReset_inv (s : State) (rest : List HostAction) : (s.applyReset rest).Inv where
  block := by simp [State.BlockWf]
  err := Nat.zero_le _
  outcome := by simp [Status.reset]
  posZero _ := rfl
  posRange h := absurd h (by simp [Status.reset])
  rsp := by simp

/-- Self-correction of the packet in P keeps the invariant: the block keeps its length, and a corrected position lies
in it (42 R125 d). -/
theorem State.Inv.selfCorrect {s : State} (hs : s.Inv) {pkt : Packet} {b : Memory} {o : CorrectionOutcome}
    (hlen : pkt.block.length = s.cfg.dataBytes) (hb : selfCorrectFn pkt.block = .ok (b, o)) :
    ((s.load { pkt with block := b }).recordOutcome o).Inv := by
  obtain ⟨hblen, ho⟩ := selfCorrectFn_ok hb
  refine (hs.load (hblen.trans hlen)).recordOutcome ?_
  rintro p rfl
  rcases ho with ⟨h, -⟩ | ⟨h, -⟩ | ⟨q, h, h1, hq, -⟩ <;> cases h
  exact ⟨h1, by rwa [hlen] at hq⟩

/-- The working step of TOPAYLOAD and JOIN keeps the invariant. -/
theorem State.Inv.toPayloadStep {s : State} (hs : s.Inv) {pkt : Packet} (hlen : pkt.block.length = s.cfg.dataBytes) :
    (toPayloadStep s pkt).1.Inv := by
  rcases toPayloadStep_cases s pkt with ⟨-, h⟩ | ⟨b, o, hb, ⟨-, h⟩ | ⟨-, e, -, h⟩ | ⟨-, hd, pl, -, h⟩⟩ <;> rw [h]
  · exact hs
  · exact hs.selfCorrect hlen hb
  · exact hs.selfCorrect hlen hb
  · exact (hs.selfCorrect hlen hb).load ((selfCorrectFn_ok hb).1.trans hlen)

/-- Everything one round of JOIN's loop can do (44 R156, R157, R159). -/
theorem joinLoop_cons_cases (expected : Nat) (out blk : Bytes) (rest : List Bytes) (s : State) :
    (∃ e, parseFn s.cfg blk = .error e ∧ joinLoop expected out (blk :: rest) s = (s, .error e)) ∨
    ∃ pkt, parseFn s.cfg blk = .ok pkt ∧
      ((∃ s1 e, toPayloadStep (s.load pkt) pkt = (s1, .error e) ∧
          joinLoop expected out (blk :: rest) s = (s1, .error e)) ∨
       ∃ s1 pkt' bytes, toPayloadStep (s.load pkt) pkt = (s1, .ok (pkt', bytes)) ∧
         ((pkt'.index.toInt ≠ expected ∧ joinLoop expected out (blk :: rest) s = (s1, .error .missingFragment)) ∨
          (pkt'.index.toInt = expected ∧ pkt'.fragFlag = 1 ∧
            joinLoop expected out (blk :: rest) s = (s1, .ok (out ++ bytes))) ∨
          (pkt'.index.toInt = expected ∧ pkt'.fragFlag ≠ 1 ∧
            joinLoop expected out (blk :: rest) s = joinLoop (expected + 1) (out ++ bytes) rest s1))) := by
  cases hparse : parseFn s.cfg blk with
  | error e => exact .inl ⟨e, rfl, by simp only [joinLoop, hparse]⟩
  | ok pkt =>
    refine .inr ⟨pkt, rfl, ?_⟩
    rcases hstep : toPayloadStep (s.load pkt) pkt with ⟨s1, e | ⟨pkt', bytes⟩⟩
    · exact .inl ⟨s1, e, rfl, by simp only [joinLoop, hparse, hstep]⟩
    · refine .inr ⟨s1, pkt', bytes, rfl, ?_⟩
      by_cases hindex : pkt'.index.toInt = expected
      · by_cases hflag : pkt'.fragFlag = 1
        · exact .inr (.inl ⟨hindex, hflag, by simp [joinLoop, hparse, hstep, hindex, hflag]⟩)
        · exact .inr (.inr ⟨hindex, hflag, by
            simp only [joinLoop, hparse, hstep, hindex, hflag, ne_eq, not_true_eq_false, if_false]⟩)
      · exact .inl ⟨hindex, by simp [joinLoop, hparse, hstep, hindex]⟩

/-- What every round of JOIN's loop keeps, the whole loop keeps. -/
theorem joinLoop_induction {P : State → Prop}
    (round : ∀ s blk pkt, P s → parseFn s.cfg blk = .ok pkt → P (toPayloadStep (s.load pkt) pkt).1)
    (blocks : List Bytes) (expected : Nat) (out : Bytes) (s : State) (hs : P s) :
    P (joinLoop expected out blocks s).1 := by
  induction blocks generalizing expected out s with
  | nil => exact hs
  | cons blk rest ih =>
    rcases joinLoop_cons_cases expected out blk rest s with
      ⟨e, -, h⟩ | ⟨pkt, hparse, ⟨s1, e, hstep, h⟩ | ⟨s1, pkt', bytes, hstep, ⟨-, h⟩ | ⟨-, -, h⟩ | ⟨-, -, h⟩⟩⟩ <;> rw [h]
    · exact hs
    all_goals
      have hround := round s blk pkt hs hparse
      rw [hstep] at hround
    · exact hround
    · exact hround
    · exact hround
    · exact ih _ _ s1 hround

theorem State.Inv.joinLoop {s : State} (hs : s.Inv) (expected : Nat) (out : Bytes) (blocks : List Bytes) :
    (joinLoop expected out blocks s).1.Inv :=
  joinLoop_induction (fun _ _ _ h hparse => (h.load (parseFn_fresh hparse).length).toPayloadStep
    (parseFn_fresh hparse).length) blocks expected out s hs

/-- Every command brings the unit to a working state that meets the invariant. -/
theorem Works.inv {i : Instr} {s s1 : State} {r : Except Err Response} (hw : Works s i s1 r) (hs : s.Inv) : s1.Inv := by
  have hlen : ∀ {pkt : Packet}, s.p = some pkt → pkt.block.length = s.cfg.dataBytes :=
    fun hp => (Memory.wf_iff _ _).mp (hs.block _ hp)
  cases hw with
  | answered => exact hs
  | failed => exact hs
  | loaded _ hpkt => exact hs.load hpkt.length
  | corrected hp hb => exact hs.selfCorrect (hlen hp) hb
  | decoded hp => exact hs.toPayloadStep (hlen hp)
  | joined => exact hs.joinLoop _ _ _

theorem exec_keeps_inv {i : Instr} {s t : State} (hs : s.Inv) (h : exec i s = .next t) : t.Inv := by
  obtain ⟨s1, r, rfl, hw⟩ := exec_inv h
  exact (hw.inv hs).finish r

theorem step_idle {s : State} (h : s.pending = []) : step s = .fault .noCommand := by
  rw [step, h]

theorem step_reset {s : State} {rest : List HostAction} (h : s.pending = .reset :: rest) :
    step s = .next (s.applyReset rest) := by
  rw [step, h]

/-- A command of the table runs (30 R73). -/
theorem step_command {s : State} {c : Command} {rest : List HostAction} {i : Instr} (h : s.pending = .command c :: rest)
    (hi : decodeOp c.op = some i) : step s = exec i (s.present c rest) := by
  simp [step, h, State.commandWord, decode, hi]

/-- An opcode outside the table is illegal (30 R74). -/
theorem step_illegal {s : State} {c : Command} {rest : List HostAction} (h : s.pending = .command c :: rest)
    (hi : decodeOp c.op = none) : step s = .next (illegalCommand (s.present c rest)) := by
  simp [step, h, State.commandWord, decode, hi]

/-- Everything a step can do: a reset, a command of the table, or an illegal opcode. -/
theorem step_cases {s t : State} (h : step s = .next t) :
    (∃ rest, s.pending = .reset :: rest ∧ t = s.applyReset rest) ∨
    (∃ c rest i, s.pending = .command c :: rest ∧ decodeOp c.op = some i ∧ exec i (s.present c rest) = .next t) ∨
    (∃ c rest, s.pending = .command c :: rest ∧ decodeOp c.op = none ∧ t = illegalCommand (s.present c rest)) := by
  rcases hp : s.pending with _ | ⟨c | _, rest⟩
  · rw [step_idle hp] at h; cases h
  · cases hi : decodeOp c.op with
    | none =>
      rw [step_illegal hp hi] at h
      exact .inr (.inr ⟨c, rest, rfl, hi, by injection h with h; exact h.symm⟩)
    | some i => exact .inr (.inl ⟨c, rest, i, rfl, hi, by rw [← h, step_command hp hi]⟩)
  · rw [step_reset hp] at h
    exact .inl ⟨rest, rfl, by injection h with h; exact h.symm⟩

/-- Settles O51: the invariant through each of the three things a step can do. -/
theorem stepKeepsTheInvariant : Obligations.StepKeepsTheInvariant := by
  intro s t hs h
  rcases step_cases h with ⟨rest, -, rfl⟩ | ⟨c, rest, i, -, -, hexec⟩ | ⟨c, rest, -, -, rfl⟩
  · exact s.applyReset_inv rest
  · exact exec_keeps_inv (hs.present c rest) hexec
  · exact (hs.present c rest).finish (.error .illegalCommand)

/-- Settles O52: the state after reset is what a reset makes of it. -/
theorem resetMeetsTheInvariant : Obligations.ResetMeetsTheInvariant :=
  State.applyReset_inv State.reset []

end Sys2Proof.Machine

/-! ### What SELFCORRECT and TOPAYLOAD change in the block -/

namespace Sys2Proof.Machine

/-- `flipBit` writes one byte of the block, the one that holds the position (20 R43). -/
theorem flipBit_eq_set {blk blk' : Memory} {p : Nat} (h : flipBit blk p = .ok blk') :
    ∃ b, blk' = blk.set (p / 8) b := by
  unfold flipBit setBit at h
  split at h
  case h_1 =>
    split at h
    case h_1 => cases h; exact ⟨_, rfl⟩
    case h_2 => cases h
  case h_2 => cases h

/-- From `blk` to `blk'` at most the bit at `pos` changed, and that only if `outcome` says that a bit was corrected. -/
structure OneBitFrame (outcome : BitVec 2) (pos : Nat) (blk blk' : Memory) : Prop where
  length : blk'.length = blk.length
  bits : ∀ q, ¬(outcome = 1 ∧ pos = q) → getBit blk' q = getBit blk q
  bytes : ∀ a, ¬(outcome = 1 ∧ pos / 8 = a) → blk'.byteAt a = blk.byteAt a

theorem OneBitFrame.refl (outcome : BitVec 2) (pos : Nat) (blk : Memory) : OneBitFrame outcome pos blk blk :=
  ⟨rfl, fun _ _ => rfl, fun _ _ => rfl⟩

theorem flipBit_oneBitFrame {blk blk' : Memory} {p : Nat} (h : flipBit blk p = .ok blk') :
    OneBitFrame 1 p blk blk' := by
  obtain ⟨hp, hlen, hun⟩ := flipBit_inv h
  obtain ⟨b, hset⟩ := flipBit_eq_set h
  refine ⟨hlen, fun q hq => ?_, fun a ha => ?_⟩
  · rw [getBit_eq, getBit_eq, hun, List.getElem?_set_ne fun hpq => hq ⟨rfl, hpq⟩]
  · rw [Memory.byteAt, hset, List.getElem?_set_ne fun hpa => ha ⟨rfl, hpa⟩, Memory.byteAt]

/-- Self-correction changes at most the bit that its outcome names (42 R125). -/
theorem selfCorrectFn_oneBitFrame {blk b : Memory} {o : CorrectionOutcome} (h : selfCorrectFn blk = .ok (b, o)) :
    OneBitFrame o.code.1 o.code.2 blk b := by
  obtain ⟨-, ⟨-, rfl⟩ | ⟨-, rfl⟩ | ⟨p, rfl, -, -, hflip⟩⟩ := selfCorrectFn_ok h
  · exact .refl _ _ _
  · exact .refl _ _ _
  · exact flipBit_oneBitFrame hflip

/-- The working step of TOPAYLOAD changes at most the bit that STATUS then names, also when a later check fails. -/
theorem toPayloadStep_oneBitFrame {s : State} {pkt : Packet} (hp : s.p = some pkt) :
    ∃ pkt', (toPayloadStep s pkt).1.p = some pkt' ∧
      OneBitFrame (toPayloadStep s pkt).1.status.outcome (toPayloadStep s pkt).1.status.pos pkt.block pkt'.block := by
  rcases toPayloadStep_cases s pkt with ⟨-, h⟩ | ⟨b, o, hb, ⟨-, h⟩ | ⟨-, e, -, h⟩ | ⟨-, hd, pl, -, h⟩⟩ <;> rw [h]
  · exact ⟨pkt, hp, .refl _ _ _⟩
  · exact ⟨_, rfl, selfCorrectFn_oneBitFrame hb⟩
  · exact ⟨_, rfl, selfCorrectFn_oneBitFrame hb⟩
  · exact ⟨_, rfl, selfCorrectFn_oneBitFrame hb⟩

/-- The two correcting commands change at most the bit that the working state's STATUS names. -/
theorem Works.oneBitFrame {i : Instr} {s s1 : State} {r : Except Err Response} (hw : Works s i s1 r) {pkt : Packet}
    (hi : i ∈ [Instr.selfcorrect, .topayload]) (hp : s.p = some pkt) :
    ∃ pkt', s1.p = some pkt' ∧ OneBitFrame s1.status.outcome s1.status.pos pkt.block pkt'.block := by
  cases hw with
  | answered | failed => exact ⟨pkt, hp, .refl _ _ _⟩
  | loaded hi' => fin_cases hi' <;> exact absurd hi (by decide)
  | corrected hp' hb =>
    obtain rfl := Option.some.inj (hp.symm.trans hp')
    exact ⟨_, rfl, selfCorrectFn_oneBitFrame hb⟩
  | decoded hp' =>
    obtain rfl := Option.some.inj (hp.symm.trans hp')
    exact toPayloadStep_oneBitFrame hp
  | joined => exact absurd hi (by decide)

/-- Settles O35: answering leaves P, OUTCOME and POS as the working state has them. -/
theorem correctionChangesOnlyTheReportedBit : Obligations.CorrectionChangesOnlyTheReportedBit := by
  intro i s t pkt hi hp h
  obtain ⟨s1, r, rfl, hw⟩ := exec_inv h
  obtain ⟨pkt', hp', hframe⟩ := hw.oneBitFrame hi hp
  rw [State.finish_p, State.finish_outcome, State.finish_pos]
  exact ⟨pkt', hp', hframe.length, hframe.bits, hframe.bytes⟩

end Sys2Proof.Machine

/-! ### The header cache after a success -/

namespace Sys2Proof.Machine

/-- What TOPAYLOAD and JOIN leave in P on success: a header that the block holds, with size and flag in range (10
R34). -/
structure Packet.Decoded (cfg : Config) (pkt : Packet) : Prop where
  cache : pkt.CacheAgrees
  sizeNonneg : 0 ≤ pkt.size.toInt
  sizeLe : pkt.size.toInt ≤ cfg.dataBytesValid
  flag : pkt.fragFlag = 0 ∨ pkt.fragFlag = 1

theorem extractPayload_decoded {cfg : Config} {blk : Memory} {hd : Header} {payload : Bytes}
    (hlen : blk.length = cfg.dataBytes) (h : extractPayload cfg blk = .ok (hd, payload)) :
    Packet.Decoded cfg { block := blk, index := hd.index, size := hd.size, fragFlag := hd.fragFlag } := by
  obtain ⟨hd', hread, ⟨-, h'⟩ | ⟨-, -, -, -, h'⟩ | ⟨hnonneg, hle, hflag, h'⟩⟩ := extractPayload_cases cfg blk hlen <;>
    rw [h] at h' <;> cases h'
  exact ⟨hread, hnonneg, hle, hflag⟩

/-- A working step that succeeds leaves the packet it decoded in P. -/
theorem toPayloadStep_decoded {s s1 : State} {pkt pkt' : Packet} {payload : Bytes}
    (hlen : pkt.block.length = s.cfg.dataBytes) (h : toPayloadStep s pkt = (s1, .ok (pkt', payload))) :
    s1.p = some pkt' ∧ pkt'.Decoded s1.cfg := by
  rcases toPayloadStep_cases s pkt with ⟨-, h'⟩ | ⟨b, o, hb, ⟨-, h'⟩ | ⟨-, e, -, h'⟩ | ⟨-, hd, pl, hext, h'⟩⟩ <;>
    rw [h] at h' <;> cases h'
  exact ⟨rfl, extractPayload_decoded ((selfCorrectFn_ok hb).1.trans hlen) hext⟩

/-- A JOIN that succeeds leaves the packet that its last working step decoded in P (44 R159). -/
theorem joinLoop_decoded {blocks : List Bytes} {expected : Nat} {out payload : Bytes} {s t : State}
    (h : joinLoop expected out blocks s = (t, .ok payload)) : ∃ pkt, t.p = some pkt ∧ pkt.Decoded t.cfg := by
  induction blocks generalizing expected out s with
  | nil => cases h
  | cons blk rest ih =>
    rcases joinLoop_cons_cases expected out blk rest s with
      ⟨e, -, h'⟩ | ⟨pkt, hparse, ⟨s1, e, -, h'⟩ | ⟨s1, pkt', bytes, hstep, ⟨-, h'⟩ | ⟨-, -, h'⟩ | ⟨-, -, h'⟩⟩⟩ <;>
      rw [h] at h'
    · cases h'
    · cases h'
    · cases h'
    · cases h'
      exact ⟨pkt', toPayloadStep_decoded (s := s.load pkt) (parseFn_fresh hparse).length hstep⟩
    · exact ih h'.symm

/-- TOPAYLOAD and JOIN that succeed leave a decoded packet. -/
theorem Works.decoded_of_ok {i : Instr} {s s1 : State} {r : Except Err Response} (hw : Works s i s1 r)
    (hr : ∃ rsp, r = .ok rsp) (hs : s.BlockWf) (hi : i ∈ [Instr.topayload, .join]) :
    ∃ pkt, s1.p = some pkt ∧ pkt.Decoded s1.cfg := by
  obtain ⟨rsp, hr⟩ := hr
  cases hw with
  | answered hi' => fin_cases hi' <;> exact absurd hi (by decide)
  | failed => cases hr
  | loaded hi' => fin_cases hi' <;> exact absurd hi (by decide)
  | corrected => exact absurd hi (by decide)
  | @decoded pkt hp =>
    rcases hstep : toPayloadStep s pkt with ⟨s1, e | ⟨pkt', payload⟩⟩ <;> rw [hstep] at hr
    · cases hr
    · exact ⟨pkt', toPayloadStep_decoded ((Memory.wf_iff _ _).mp (hs pkt hp)) hstep⟩
  | joined =>
    rcases hloop : joinLoop 0 [] s.cmd.blocks s with ⟨s1, e | payload⟩ <;> rw [hloop] at hr
    · cases hr
    · exact joinLoop_decoded hloop

/-- Every command that succeeds in loading or decoding a packet leaves one whose cache agrees with its block. -/
theorem Works.cacheAgrees_of_ok {i : Instr} {s s1 : State} {r : Except Err Response} (hw : Works s i s1 r)
    (hr : ∃ rsp, r = .ok rsp) (hs : s.BlockWf) (hi : i ∈ [Instr.encode, .parse, .topayload, .split, .join]) :
    ∃ pkt, s1.p = some pkt ∧ pkt.CacheAgrees := by
  by_cases hdec : i ∈ [Instr.topayload, .join]
  · obtain ⟨pkt, hp, hpkt⟩ := hw.decoded_of_ok hr hs hdec
    exact ⟨pkt, hp, hpkt.cache⟩
  · cases hw with
    | answered hi' => fin_cases hi' <;> exact absurd hi (by decide)
    | failed => exact absurd hr (by simp)
    | loaded _ hpkt => exact ⟨_, rfl, hpkt.cache⟩
    | corrected => exact absurd hi (by decide)
    | decoded | joined => exact absurd (by decide) hdec

/-- Settles O42: from what the working state of a successful command holds in P. -/
theorem successfulDecodeLeavesHeaderInRange : Obligations.SuccessfulDecodeLeavesHeaderInRange := by
  intro i s t pkt hs h herr hp
  obtain ⟨s1, r, rfl, hw⟩ := exec_inv h
  have hr := (s1.finish_err_eq_zero r).mp herr
  rw [State.finish_p] at hp
  refine ⟨fun hi => ?_, fun hi => ?_⟩
  · obtain ⟨pkt', hp', hpkt⟩ := hw.decoded_of_ok hr hs hi
    obtain rfl := Option.some.inj (hp.symm.trans hp')
    rw [State.finish_cfg]
    exact ⟨hpkt.sizeNonneg, hpkt.sizeLe, hpkt.flag⟩
  · obtain ⟨pkt', hp', hpkt⟩ := hw.cacheAgrees_of_ok hr hs hi
    obtain rfl := Option.some.inj (hp.symm.trans hp')
    exact hpkt

end Sys2Proof.Machine

/-! ### Frames of the commands -/

namespace Sys2Proof.Machine

/-- No command changes the configuration, its operands or the host's list before it answers. -/
theorem Works.keeps {i : Instr} {s s1 : State} {r : Except Err Response} (hw : Works s i s1 r) :
    KeptByCommands s s1 := by
  cases hw with
  | answered | failed | loaded | corrected => exact ⟨rfl, rfl, rfl⟩
  | @decoded pkt =>
    obtain ⟨hcfg, hcmd, hpending, -⟩ := toPayloadStep_frame s pkt
    exact ⟨hcfg, hcmd, hpending⟩
  | joined =>
    obtain ⟨hcfg, hcmd, hpending, -⟩ := joinLoop_frame s.cmd.blocks 0 [] s
    exact ⟨hcfg, hcmd, hpending⟩

/-- Settles O53: the working state keeps the three, and so does the answer. -/
theorem commandsKeepConfigurationAndOperands : Obligations.CommandsKeepConfigurationAndOperands := by
  intro i s t h
  obtain ⟨s1, r, rfl, hw⟩ := exec_inv h
  simpa [KeptByCommands] using hw.keeps

/-- A working step that fails leaves the header cache of the packet in P (42 R131). -/
theorem toPayloadStep_error_cache {s s1 : State} {pkt : Packet} {e : Err} (hp : s.p = some pkt)
    (h : toPayloadStep s pkt = (s1, .error e)) : s1.cache = s.cache := by
  rcases toPayloadStep_cases s pkt with ⟨-, h'⟩ | ⟨b, o, -, ⟨-, h'⟩ | ⟨-, e', -, h'⟩ | ⟨-, hd, pl, -, h'⟩⟩ <;>
    rw [h] at h' <;> cases h' <;> simp [State.cache, hp]

/-- P.valid, once 1, stays 1 (10 R25). -/
theorem Works.isSome {i : Instr} {s s1 : State} {r : Except Err Response} (hw : Works s i s1 r) (hs : s.p.isSome) :
    s1.p.isSome := by
  cases hw with
  | answered | failed => exact hs
  | loaded | corrected => rfl
  | @decoded pkt =>
    obtain ⟨-, -, -, -, -, hp | hp⟩ := toPayloadStep_frame s pkt
    · rwa [hp]
    · exact hp
  | joined =>
    obtain ⟨-, -, -, -, -, hp | hp⟩ := joinLoop_frame s.cmd.blocks 0 [] s
    · rwa [hp]
    · exact hp

/-- The utilities, SYNDROME and PARITY leave P. -/
theorem Works.p_eq_of_answers {i : Instr} {s s1 : State} {r : Except Err Response} (hw : Works s i s1 r)
    (hi : i ∈ [Instr.byte2bits, .bits2byte, .int16tobytes, .bytestoint16, .int32tobytes, .bytestoint32, .syndrome,
      .parity]) : s1.p = s.p := by
  cases hw with
  | answered | failed => rfl
  | loaded hi' => fin_cases hi' <;> exact absurd hi (by decide)
  | corrected | decoded | joined => exact absurd hi (by decide)

/-- ENCODE, PARSE and SPLIT leave P when they fail. -/
theorem Works.p_eq_of_error {i : Instr} {s s1 : State} {r : Except Err Response} (hw : Works s i s1 r)
    (hi : i ∈ [Instr.encode, .parse, .split]) (hr : ¬∃ rsp, r = .ok rsp) : s1.p = s.p := by
  cases hw with
  | answered | failed => rfl
  | loaded => exact absurd ⟨_, rfl⟩ hr
  | corrected | decoded | joined => exact absurd hi (by decide)

/-- ENCODE, PARSE, SPLIT and JOIN leave a packet in P when they succeed. -/
theorem Works.isSome_of_ok {i : Instr} {s s1 : State} {r : Except Err Response} (hw : Works s i s1 r)
    (hi : i ∈ [Instr.encode, .parse, .split, .join]) (hr : ∃ rsp, r = .ok rsp) : s1.p.isSome := by
  obtain ⟨rsp, hr⟩ := hr
  cases hw with
  | answered hi' => fin_cases hi' <;> exact absurd hi (by decide)
  | failed => cases hr
  | loaded => rfl
  | corrected | decoded => exact absurd hi (by decide)
  | joined =>
    rcases hloop : joinLoop 0 [] s.cmd.blocks s with ⟨s1, e | payload⟩ <;> rw [hloop] at hr
    · cases hr
    · obtain ⟨pkt, hp, -⟩ := joinLoop_decoded hloop
      exact Option.isSome_of_eq_some hp

/-- Only SELFCORRECT, TOPAYLOAD and JOIN write OUTCOME and POS. -/
theorem Works.status_eq {i : Instr} {s s1 : State} {r : Except Err Response} (hw : Works s i s1 r)
    (hi : i ∉ [Instr.selfcorrect, .topayload, .join]) : s1.status = s.status := by
  cases hw with
  | answered | failed | loaded => rfl
  | corrected | decoded | joined => exact absurd (by decide) hi

/-- SELFCORRECT, and TOPAYLOAD when it fails, leave the header cache. -/
theorem Works.cache_eq {i : Instr} {s s1 : State} {r : Except Err Response} (hw : Works s i s1 r)
    (hi : i = .selfcorrect ∨ i = .topayload ∧ ¬∃ rsp, r = .ok rsp) : s1.cache = s.cache := by
  cases hw with
  | answered | failed => rfl
  | loaded hi' => fin_cases hi' <;> simp at hi
  | corrected hp => simp [State.cache, hp]
  | @decoded pkt hp =>
    rcases hstep : toPayloadStep s pkt with ⟨s1, e | ⟨pkt', payload⟩⟩ <;> rw [hstep] at hi
    · exact toPayloadStep_error_cache hp hstep
    · simp [Except.map] at hi
  | joined => simp at hi

/-- Settles O54: each clause is the frame of the working state, and the answer leaves P, OUTCOME and POS. -/
theorem registersChangeOnlyAsTheAccessTableSays : Obligations.RegistersChangeOnlyAsTheAccessTableSays := by
  intro i s t h
  obtain ⟨s1, r, rfl, hw⟩ := exec_inv h
  have hcache : (s1.finish r).cache = s1.cache := by simp [State.cache]
  rw [State.finish_p, State.finish_outcome, State.finish_pos, hcache, ne_eq, State.finish_err_eq_zero]
  refine ⟨hw.p_eq_of_answers, hw.p_eq_of_error, hw.isSome_of_ok, fun hi => ?_, fun hi => hw.cache_eq (.inl hi),
    fun hi hr => hw.cache_eq (.inr ⟨hi, hr⟩), hw.isSome⟩
  rw [hw.status_eq hi]
  exact ⟨rfl, rfl⟩

end Sys2Proof.Machine

/-! ### What no command reads: the response port, STATUS.ERR, and the operand fields it does not use -/

namespace Sys2Proof.Machine

/-- The state with the ports and STATUS.ERR replaced: the fields that carry nothing from one command to the next. -/
def State.withPorts (s : State) (c : Command) (e : BitVec 8) (r : Option Response) : State :=
  { s with status := s.status.setErr e, cmd := c, rsp := r }

section

variable (s : State) (c : Command) (e : BitVec 8) (r : Option Response)

@[simp] theorem State.withPorts_cfg : (s.withPorts c e r).cfg = s.cfg := rfl

@[simp] theorem State.withPorts_p : (s.withPorts c e r).p = s.p := rfl

@[simp] theorem State.withPorts_cmd : (s.withPorts c e r).cmd = c := rfl

theorem State.load_withPorts (pkt : Packet) : (s.withPorts c e r).load pkt = (s.load pkt).withPorts c e r := rfl

/-- An answer overwrites STATUS.ERR and the response port (10 R27, R29): of the replaced fields only the command
stays. -/
theorem State.finish_withPorts (x : Except Err Response) :
    (s.withPorts c e r).finish x = { s.finish x with cmd := c } := by
  cases x <;> rfl

/-- TOPAYLOAD's working step does not read the ports or STATUS.ERR. -/
theorem toPayloadStep_withPorts (pkt : Packet) :
    toPayloadStep (s.withPorts c e r) pkt = ((toPayloadStep s pkt).1.withPorts c e r, (toPayloadStep s pkt).2) := by
  unfold toPayloadStep
  rcases selfCorrectFn pkt.block with err | ⟨b, o⟩
  · rfl
  · dsimp only [State.withPorts_cfg]
    split_ifs
    · rfl
    · cases extractPayload s.cfg b <;> rfl

end

/-- JOIN's loop does not read the ports or STATUS.ERR: its blocks come as an argument. -/
theorem joinLoop_withPorts (blocks : List Bytes) (expected : Nat) (out : Bytes) (s : State) (c : Command)
    (e : BitVec 8) (r : Option Response) :
    joinLoop expected out blocks (s.withPorts c e r) =
      ((joinLoop expected out blocks s).1.withPorts c e r, (joinLoop expected out blocks s).2) := by
  induction blocks generalizing expected out s with
  | nil => rfl
  | cons blk rest ih =>
    simp only [joinLoop, State.withPorts_cfg]
    cases parseFn s.cfg blk with
    | error err => rfl
    | ok pkt =>
      simp only [State.load_withPorts, toPayloadStep_withPorts]
      rcases toPayloadStep (s.load pkt) pkt with ⟨s1, err | ⟨pkt', bytes⟩⟩
      · rfl
      · dsimp only
        split_ifs
        · rfl
        · rfl
        · exact ih _ _ s1

theorem Operand.oneByte_congr {c d : Command} (h : c.bytes = d.bytes) : Operand.oneByte c = Operand.oneByte d := by
  rw [Operand.oneByte, Operand.oneByte, h]

theorem Operand.half_congr {c d : Command} (h : c.value.toNat % 2 ^ 16 = d.value.toNat % 2 ^ 16) :
    Operand.half c = Operand.half d := by
  rw [Operand.half, Operand.half, h]

/-- With the ports and STATUS.ERR replaced, and the operand fields that the command reads kept, a command reaches the
same working state and the same result. -/
theorem exec_withPorts_finish {i : Instr} {s : State} {c : Command} (hc : SameOperands i s.cmd c) (e : BitVec 8)
    (r : Option Response) : ∃ s1 x, exec i s = .next (State.finish s1 x) ∧
      exec i (s.withPorts c e r) = .next ((s1.withPorts c e r).finish x) := by
  cases i with
  | byte2bits => exact ⟨s, _, rfl, by rw [Operand.oneByte_congr hc]; rfl⟩
  | bits2byte => exact ⟨s, _, rfl, by rw [show s.cmd.bits = c.bits from hc]; rfl⟩
  | int16tobytes => exact ⟨s, .ok _, rfl, by rw [Operand.half_congr hc]; rfl⟩
  | bytestoint16 => exact ⟨s, _, rfl, by rw [show s.cmd.bytes = c.bytes from hc]; rfl⟩
  | int32tobytes => exact ⟨s, .ok _, rfl, by rw [show s.cmd.value = c.value from hc]; rfl⟩
  | bytestoint32 => exact ⟨s, _, rfl, by rw [show s.cmd.bytes = c.bytes from hc]; rfl⟩
  | encode =>
    obtain ⟨hindex, hflag, hbytes⟩ := hc
    simp only [exec, execEncode, State.withPorts_cfg, State.withPorts_cmd, hindex, hflag, hbytes]
    cases encodeFn s.cfg c.index c.flag c.bytes with
    | error err => exact ⟨s, .error err, rfl, rfl⟩
    | ok pkt => exact ⟨s.load pkt, .ok _, rfl, rfl⟩
  | parse =>
    simp only [exec, execParse, State.withPorts_cfg, State.withPorts_cmd, show s.cmd.bytes = c.bytes from hc]
    cases parseFn s.cfg c.bytes with
    | error err => exact ⟨s, .error err, rfl, rfl⟩
    | ok pkt => exact ⟨s.load pkt, .ok _, rfl, rfl⟩
  | syndrome =>
    simp only [exec, execSyndrome, State.withPacket, State.withPorts_p]
    cases s.p with
    | none => exact ⟨s, .error .noPacket, rfl, rfl⟩
    | some pkt => exact ⟨s, .ok _, rfl, rfl⟩
  | parity =>
    simp only [exec, execParity, State.withPacket, State.withPorts_p]
    cases s.p with
    | none => exact ⟨s, .error .noPacket, rfl, rfl⟩
    | some pkt => exact ⟨s, .ok _, rfl, rfl⟩
  | selfcorrect =>
    simp only [exec, execSelfcorrect, State.withPacket, State.withPorts_p]
    cases s.p with
    | none => exact ⟨s, .error .noPacket, rfl, rfl⟩
    | some pkt =>
      dsimp only
      cases selfCorrectFn pkt.block with
      | error err => exact ⟨s, .error err, rfl, rfl⟩
      | ok bo => exact ⟨(s.load { pkt with block := bo.1 }).recordOutcome bo.2, .ok _, rfl, rfl⟩
  | topayload =>
    simp only [exec, execTopayload, State.withPacket, State.withPorts_p]
    cases s.p with
    | none => exact ⟨s, .error .noPacket, rfl, rfl⟩
    | some pkt =>
      dsimp only
      rw [toPayloadStep_withPorts]
      rcases toPayloadStep s pkt with ⟨s1, err | ⟨pkt', payload⟩⟩
      · exact ⟨s1, .error err, rfl, rfl⟩
      · exact ⟨s1, .ok _, rfl, rfl⟩
  | split =>
    simp only [exec, execSplit, State.withPorts_cfg, State.withPorts_cmd, show s.cmd.bytes = c.bytes from hc]
    cases h : splitFn s.cfg c.bytes with
    | error err => exact ⟨s, .error err, rfl, rfl⟩
    | ok pkts =>
      obtain ⟨pkt, hlast, -⟩ := splitFn_getLast? h
      dsimp only
      rw [State.loadLast_of_getLast? hlast, State.loadLast_of_getLast? hlast]
      exact ⟨s.load pkt, .ok _, rfl, rfl⟩
  | join =>
    simp only [exec, execJoin, State.withPorts_cmd, show s.cmd.blocks = c.blocks from hc]
    rw [joinLoop_withPorts]
    rcases joinLoop 0 [] c.blocks s with ⟨s1, err | payload⟩
    · exact ⟨s1, .error err, rfl, rfl⟩
    · exact ⟨s1, .ok _, rfl, rfl⟩

/-- A command does the same whatever the response port, STATUS.ERR and the operand fields that it does not read hold
(10 R27, R29, 30 R69). -/
theorem exec_withPorts {i : Instr} {s t : State} {c : Command} (hc : SameOperands i s.cmd c) (e : BitVec 8)
    (r : Option Response) (h : exec i s = .next t) : exec i (s.withPorts c e r) = .next { t with cmd := c } := by
  obtain ⟨s1, x, hexec, hexec'⟩ := exec_withPorts_finish hc e r
  rw [h] at hexec
  injection hexec with ht
  rw [hexec', State.finish_withPorts, ht]

theorem SameOperands.refl (i : Instr) (c : Command) : SameOperands i c c := by
  cases i <;> simp [SameOperands]

theorem exec_withPorts_same (i : Instr) (s : State) (e : BitVec 8) (r : Option Response) :
    exec i (s.withPorts s.cmd e r) = exec i s := by
  obtain ⟨s1, x, hexec, hw⟩ := exec_works i s
  obtain ⟨-, hcmd, -⟩ := hw.keeps
  rw [exec_withPorts (SameOperands.refl i s.cmd) e r hexec, hexec, ← hcmd, ← State.finish_cmd s1 x]

/-- A step reads neither port and not STATUS.ERR: it presents the command on the port before it runs it. -/
theorem step_withPorts (s : State) (c : Command) (e : BitVec 8) (r : Option Response) :
    step (s.withPorts c e r) = step s := by
  have hpending : (s.withPorts c e r).pending = s.pending := rfl
  have hpresent : ∀ d rest, (s.withPorts c e r).present d rest = (s.present d rest).withPorts d e r := fun _ _ => rfl
  rcases hp : s.pending with _ | ⟨d | _, rest⟩ <;> rw [hp] at hpending
  · rw [step_idle hpending, step_idle hp]
  · cases hi : decodeOp d.op with
    | none =>
      rw [step_illegal hpending hi, step_illegal hp hi, hpresent]
      exact congrArg Host.Outcome.next ((s.present d rest).finish_withPorts d e r (.error .illegalCommand))
    | some i =>
      rw [step_command hpending hi, step_command hp hi, hpresent]
      exact exec_withPorts_same i (s.present d rest) e r
  · rw [step_reset hpending, step_reset hp]
    rfl

/-- After every command, legal or not, the response agrees with STATUS.ERR. -/
theorem step_command_rsp {s t : State} {c : Command} {rest : List HostAction} (hp : s.pending = .command c :: rest)
    (h : step s = .next t) :
    ∃ r, t.rsp = some r ∧ r.err = t.status.err ∧ (r.err ≠ 0 → r = { err := r.err }) := by
  rcases step_cases h with ⟨rest, hp', -⟩ | ⟨c, rest, i, -, -, hexec⟩ | ⟨c, rest, -, -, rfl⟩
  · rw [hp] at hp'; cases hp'
  · obtain ⟨s1, r, rfl, -⟩ := exec_inv hexec
    exact s1.finish_rsp r
  · exact (s.present c rest).finish_rsp (.error .illegalCommand)

/-- Settles O55: every command ends in an answer, and no step reads STATUS.ERR. -/
theorem everyCommandWritesErr : Obligations.EveryCommandWritesErr := by
  intro s t c rest hp h
  exact ⟨step_command_rsp hp h, fun e => (step_withPorts s s.cmd e s.rsp).trans h⟩

/-- Settles O57: no step reads the ports. -/
theorem portsHoldNoStateBetweenCommands : Obligations.PortsHoldNoStateBetweenCommands :=
  fun s c r => step_withPorts s c s.status.err r

/-- Settles O58: the same command with another command on the port, the fields it reads kept. -/
theorem unusedOperandFieldsAreIgnored : Obligations.UnusedOperandFieldsAreIgnored := by
  intro i s c d hcd
  obtain ⟨s1, x, hexec, -⟩ := exec_works i { s with cmd := c }
  exact ⟨s1.finish x, hexec, exec_withPorts (s := { s with cmd := c }) hcd s.status.err s.rsp hexec⟩

end Sys2Proof.Machine

/-! ### The state after reset -/

namespace Sys2Proof.Machine

theorem State.onlyAnswered_raise (s : State) (e : Err) : OnlyAnswered s (s.raise e) :=
  ⟨rfl, rfl, rfl, rfl, rfl, rfl⟩

/-- Taking an error reports its code and changes nothing else (60 R184). -/
theorem State.raisedCode_raise (s : State) (e : Err) : RaisedCode s (s.raise e) e.code :=
  ⟨s.onlyAnswered_raise e, rfl, rfl⟩

/-- The decode-side commands raise `NoPacket` while P.valid is 0 (60 R181). -/
theorem exec_noPacket {s : State} {i : Instr} (hp : s.p = none)
    (hi : i ∈ [Instr.syndrome, .parity, .selfcorrect, .topayload]) : exec i s = .next (s.raise .noPacket) := by
  fin_cases hi <;>
    simp only [exec, execSyndrome, execParity, execSelfcorrect, execTopayload, State.withPacket, hp]

/-- Settles O3: the reset values by definition, `NoPacket` from P.valid = 0, and the ports as in O57. -/
theorem resetLeavesNoPacketAndZeroStatus : Obligations.ResetLeavesNoPacketAndZeroStatus := by
  refine ⟨rfl, rfl, rfl, rfl, fun i hi => ?_, fun c r todo => ?_⟩
  · exact ⟨_, exec_noPacket rfl hi, State.raisedCode_raise _ _⟩
  · exact step_withPorts { State.reset with pending := todo } c 0 r

end Sys2Proof.Machine

/-! ### The memory: content positions, bit access, and a second self-correction (20_memory.md) -/

namespace Sys2Proof.Machine

/-! #### Content positions -/

/-- A position holds content when it is neither 0 nor a power of two (R54). -/
theorem isParityPos_eq_false_iff (p : Nat) : isParityPos p = false ↔ p ≠ 0 ∧ ∀ k, p ≠ 2 ^ k := by
  rw [← Bool.not_eq_true, isParityPos_iff, not_or, not_exists]

/-- The first content position is 3 (R54). -/
theorem three_le_of_content {p : Nat} (hp : isParityPos p = false) : 3 ≤ p := by
  by_contra hlt
  have hsmall : p = 0 ∨ p = 1 ∨ p = 2 := by omega
  rcases hsmall with rfl | rfl | rfl <;> exact absurd hp (by decide)

/-- In a filtered range, `p` stands behind the elements kept below it. -/
theorem filter_range_getElem?_count (f : Nat → Bool) {n p : Nat} (hpn : p < n) (hfp : f p = true) :
    ((List.range n).filter f)[((List.range p).filter f).length]? = some p := by
  obtain ⟨d, rfl⟩ := Nat.exists_eq_add_of_lt hpn
  have hsplit : List.range (p + d + 1) = List.range p ++ p :: List.range' (p + 1) d := by
    have happend := List.range'_append_1 (s := 0) (m := p) (n := d + 1)
    rw [List.range_eq_range', List.range_eq_range', Nat.add_assoc, ← happend, Nat.zero_add, List.range'_succ]
  rw [hsplit, List.filter_append, List.filter_cons_of_pos hfp]
  simp

/-- `cidx(p)` counts the content positions below the content position `p` (R54): the positions below `p` without 0 and
the `floor(log2 p) + 1` powers of two. -/
theorem cidx_eq_count {p : Nat} (hp : isParityPos p = false) :
    cidx p = ((List.range p).filter fun q => !isParityPos q).length := by
  have hge := three_le_of_content hp
  have hparity := parityPositions_length p (by omega)
  have hlog := log2_step p (by omega)
  have hsum := List.length_eq_length_filter_add (l := List.range p) isParityPos
  rw [hp, if_neg Bool.false_ne_true] at hlog
  rw [List.length_range] at hsum
  unfold cidx
  omega

/-- `cpos` undoes `cidx` (R54). -/
theorem cpos_cidx {cfg : Config} {p : Nat} (hlt : p < cfg.nBits) (hp : isParityPos p = false) :
    cpos cfg (cidx p) = some p := by
  rw [cidx_eq_count hp]
  exact filter_range_getElem?_count _ hlt (by simp [hp])

/-- What `cpos` gives is a content position of the codeword (R54). -/
theorem cpos_content {cfg : Config} {j p : Nat} (h : cpos cfg j = some p) :
    p < cfg.nBits ∧ isParityPos p = false := by
  have hmem := List.mem_of_getElem? h
  simpa [contentPositions] using hmem

/-- Distinct content indices have distinct positions (R54). -/
theorem cpos_injective {cfg : Config} {i j p : Nat} (hi : cpos cfg i = some p) (hj : cpos cfg j = some p) : i = j := by
  have hnodup : (contentPositions cfg).Nodup := List.nodup_range.filter _
  obtain ⟨hlt, -⟩ := List.getElem?_eq_some_iff.mp hi
  exact (List.getElem?_inj hlt hnodup).mp (hi.trans hj.symm)

/-- Settles O2: `cidx p` is the index of `p`, as it counts what stands before it, and indices are unique. -/
theorem contentIndexInvertsContentPosition : Obligations.ContentIndexInvertsContentPosition := by
  intro cfg
  refine ⟨fun j p h => ?_, fun p hlt hp => cpos_cidx hlt ((isParityPos_eq_false_iff p).mpr hp)⟩
  obtain ⟨hlt, hp⟩ := cpos_content h
  exact ⟨three_le_of_content hp, hlt, hp, cpos_injective (cpos_cidx hlt hp) h⟩

/-! #### Bit access -/

/-- `getBit` by the byte that holds the position (R41). -/
theorem getBit_of_byte {blk : Memory} {p : Nat} {b : Byte} (h : blk[p / 8]? = some b) :
    getBit blk p = .ok (b.getLsbD (7 - p % 8)) := by
  rw [getBit, Memory.byteAt, h]

/-- `setBit` by the byte that holds the position (R42). -/
theorem setBit_of_byte {blk : Memory} {p : Nat} {b : Byte} (h : blk[p / 8]? = some b) (v : Bit) :
    setBit blk p v = .ok (blk.set (p / 8) (Byte.withBit b (7 - p % 8) v)) := by
  rw [setBit, Memory.byteAt, h]

/-- Outside the block `setBit` raises `BoundsError` (R42). -/
theorem setBit_error {blk : Memory} {p : Nat} (hp : 8 * blk.length ≤ p) (v : Bit) :
    setBit blk p v = .error .boundsError := by
  rw [setBit, Memory.byteAt, List.getElem?_eq_none (by omega)]

/-- After a `setBit` the position holds the new value (R42). -/
theorem getBit_setBit_same {blk blk' : Memory} {p : Nat} {v : Bit} (hp : p < 8 * blk.length)
    (hun : unpack blk' = (unpack blk).set p v) : getBit blk' p = .ok v := by
  rw [getBit_eq, hun, List.getElem?_set_self (by simpa using hp)]

/-- After a `setBit` every other position holds what it held (R42). -/
theorem getBit_setBit_ne {blk blk' : Memory} {p q : Nat} {v : Bit} (hq : q ≠ p)
    (hun : unpack blk' = (unpack blk).set p v) : getBit blk' q = getBit blk q := by
  rw [getBit_eq, getBit_eq, hun, List.getElem?_set_ne hq.symm]

/-- Settles O10: `setBit` is a write at one position of the codeword that `getBit` reads. -/
theorem setBitWritesOnePosition : Obligations.SetBitWritesOnePosition := by
  intro blk p v
  refine ⟨fun hp => ?_, fun hp => ⟨getBit_error hp, setBit_error hp v⟩⟩
  have hbyte : blk[p / 8]? = some blk[p / 8] := List.getElem?_eq_getElem (by omega)
  obtain ⟨blk', hset, hlen, hun⟩ := setBit_ok hp v
  exact ⟨_, blk', hbyte, getBit_of_byte hbyte, hset, hlen, getBit_setBit_same hp hun,
    fun q hq => getBit_setBit_ne hq hun⟩

/-- Complementing one bit of a byte is an exclusive-or with that bit's weight (R43). -/
theorem Byte.withBit_not (b : Byte) {k : Nat} (hk : k < 8) :
    Byte.withBit b k (!b.getLsbD k) = b ^^^ BitVec.ofNat 8 (2 ^ k) := by
  apply BitVec.eq_of_getLsbD_eq
  intro j hj
  rw [Byte.withBit_getLsbD b k j _ hk hj, BitVec.getLsbD_xor, BitVec.getLsbD_ofNat, Nat.testBit_two_pow]
  by_cases hjk : j = k
  · subst hjk
    simp [hj]
  · simp [hjk, Ne.symm hjk]

/-- `flipBit` is `setBit` with the complement of the bit that stands there (R43). -/
theorem flipBit_of_getBit {blk : Memory} {p : Nat} {v : Bit} (h : getBit blk p = .ok v) :
    flipBit blk p = setBit blk p (!v) := by
  rw [flipBit, h]

/-- `flipBit` exclusive-ors the byte that holds the position (R43). -/
theorem flipBit_of_byte {blk : Memory} {p : Nat} {b : Byte} (h : blk[p / 8]? = some b) :
    flipBit blk p = .ok (blk.set (p / 8) (b ^^^ BitVec.ofNat 8 (2 ^ (7 - p % 8)))) := by
  rw [flipBit_of_getBit (getBit_of_byte h), setBit_of_byte h, Byte.withBit_not b (by omega)]

/-- Settles O11: each clause is the lemma about `flipBit` on that side of the bounds. -/
theorem flipBitXorsOneByte : Obligations.FlipBitXorsOneByte :=
  fun _ _ => ⟨fun _ => flipBit_of_getBit, fun _ => flipBit_of_byte, flipBit_error⟩

/-! #### A second self-correction -/

/-- The outcome of a self-correction right after one with the outcome given (R52): a corrected error is gone, and what
left the block as it was is found again. -/
def CorrectionOutcome.again : CorrectionOutcome → CorrectionOutcome
  | .noErrorFound => .noErrorFound
  | .corrected _ => .noErrorFound
  | .uncorrectableDoubleError => .uncorrectableDoubleError

/-- OUTCOME tells a correction from the outcomes that are found again. -/
theorem CorrectionOutcome.again_code (o : CorrectionOutcome) :
    (o.code.1 = 1 → o.again.code = (0, 0)) ∧ (o.code.1 ≠ 1 → o.again = o) := by
  cases o <;> simp [CorrectionOutcome.code, CorrectionOutcome.again]

/-- A block whose syndrome is 0 has no error to find (42 R125 b). -/
theorem selfCorrectFn_of_syndrome_eq_zero {blk : Memory} (h : syndrome (unpack blk) = 0) :
    selfCorrectFn blk = .ok (blk, .noErrorFound) := by
  rw [selfCorrectFn, if_pos h]

/-- Flipping the position that the syndrome names makes the syndrome 0 (42 R125 c). -/
theorem syndrome_flipBit_syndrome {blk blk' : Memory} (h : flipBit blk (syndrome (unpack blk)) = .ok blk') :
    syndrome (unpack blk') = 0 := by
  obtain ⟨hlt, -, hun⟩ := flipBit_inv h
  rw [hun, syndrome_flip _ _ hlt, Nat.xor_self]

/-- Self-correction leaves a block that it does not change again (R52). -/
theorem selfCorrectFn_again {blk b : Memory} {o : CorrectionOutcome} (h : selfCorrectFn blk = .ok (b, o)) :
    selfCorrectFn b = .ok (b, o.again) := by
  rcases selfCorrectFn_cases blk with ⟨-, h'⟩ | ⟨-, -, -, b', hflip, h'⟩ | ⟨-, -, -, h'⟩ | ⟨-, -, h'⟩ <;>
    rw [h] at h' <;> cases h'
  case inl => exact h
  case inr.inl => exact selfCorrectFn_of_syndrome_eq_zero (syndrome_flipBit_syndrome hflip)
  case inr.inr.inr => exact h

/-- From `s` to `t` SELFCORRECT turned the block of `pkt` into `b`, with outcome `o` (42 R126). -/
structure SelfCorrected (s t : State) (pkt : Packet) (b : Memory) (o : CorrectionOutcome) : Prop where
  before : s.p = some pkt
  correction : selfCorrectFn pkt.block = .ok (b, o)
  after : t.p = some { pkt with block := b }
  status : t.status = ⟨0, o.code.1, o.code.2⟩

/-- SELFCORRECT on a packet whose correction stays in the block (42 R126). -/
theorem exec_selfcorrect_of_ok {s : State} {pkt : Packet} {b : Memory} {o : CorrectionOutcome} (hp : s.p = some pkt)
    (hb : selfCorrectFn pkt.block = .ok (b, o)) :
    ∃ t, exec .selfcorrect s = .next t ∧ SelfCorrected s t pkt b o := by
  refine ⟨((s.load { pkt with block := b }).recordOutcome o).respond { outcome := some o.code }, ?_, hp, hb, rfl, rfl⟩
  simp only [exec, execSelfcorrect, State.withPacket, hp, hb]

/-- A SELFCORRECT that reports success has corrected the packet in P (42 R126). -/
theorem exec_selfcorrect_inv {s t : State} (h : exec .selfcorrect s = .next t) (herr : t.status.err = 0) :
    ∃ pkt b o, SelfCorrected s t pkt b o := by
  obtain ⟨s1, r, rfl, hw⟩ := exec_inv h
  obtain ⟨rsp, rfl⟩ := (State.finish_err_eq_zero s1 r).mp herr
  cases hw with
  | answered hi => exact absurd hi (by decide)
  | loaded hi => exact absurd hi (by decide)
  | corrected hp hb => exact ⟨_, _, _, hp, hb, rfl, rfl⟩

/-- Settles O34: the second command finds the block of `selfCorrectFn_again` in P. -/
theorem selfCorrectIsIdempotent : Obligations.SelfCorrectIsIdempotent := by
  intro s t _ h herr
  obtain ⟨pkt, b, o, hfirst⟩ := exec_selfcorrect_inv h herr
  obtain ⟨u, hu, hsecond⟩ := exec_selfcorrect_of_ok hfirst.after (selfCorrectFn_again hfirst.correction)
  obtain ⟨hcorrected, hother⟩ := o.again_code
  refine ⟨u, hu, hsecond.after.trans hfirst.after.symm, ?_⟩
  rw [hfirst.status, hsecond.status]
  exact ⟨fun ho => by rw [hcorrected ho], fun ho => by rw [hother ho]⟩

end Sys2Proof.Machine

/-! ### Decoding and the step it leads to (30_encoding.md) -/

namespace Sys2Proof

/-- An opcode decodes to an instruction exactly when it is that instruction's (30 R73). -/
theorem decodeOp_eq_some_iff {op : Byte} {i : Instr} : decodeOp op = some i ↔ op = opcode i :=
  ⟨opcode_of_decodeOp, fun h => by rw [h, decodeOp_opcode]⟩

/-- Decoding looks up the first byte and leaves the others (30 R68, R73). -/
theorem decode_cons_eq_ok_iff {op : Byte} {bytes rest : Bytes} {i : Instr} :
    decode (op :: bytes) = .ok (i, rest) ↔ decodeOp op = some i ∧ bytes = rest := by
  rw [decode]
  cases decodeOp op <;> simp

/-- An opcode that decodes to nothing is in no row of the table (30 R74). -/
theorem decodeOp_eq_none_of_decode_ne_ok {op : Byte} {rest : Bytes} (h : ∀ i r, decode (op :: rest) ≠ .ok (i, r)) :
    decodeOp op = none :=
  Option.eq_none_iff_forall_ne_some.mpr fun i hi => h i rest (decode_cons_eq_ok_iff.mpr ⟨hi, rfl⟩)

/-- Settles O6: the one byte that decoding reads is the instruction's opcode, which is its whole encoding. -/
theorem decodingReadsExactlyTheEncodedWord : Obligations.DecodingReadsExactlyTheEncodedWord := by
  intro bytes i rest
  cases bytes with
  | nil => simp [decode, encode]
  | cons op bytes =>
    rw [decode_cons_eq_ok_iff, decodeOp_eq_some_iff]
    simp [encode]

/-- Settles O5: by O6, as each row's word is the encoding of its command. -/
theorem tableOpcodesDecodeToTheirCommands : Obligations.TableOpcodesDecodeToTheirCommands := by
  intro r hr
  rw [decodingReadsExactlyTheEncodedWord]
  revert r
  decide

/-- The opcodes of the table lie in the three ranges that 30 R71 fills. -/
theorem opcode_ranges (i : Instr) : (0x01 ≤ (opcode i).toNat ∧ (opcode i).toNat ≤ 0x06) ∨
    (0x10 ≤ (opcode i).toNat ∧ (opcode i).toNat ≤ 0x15) ∨
    (0x20 ≤ (opcode i).toNat ∧ (opcode i).toNat ≤ 0x21) := by
  cases i <;> decide

/-- Every other opcode is illegal (30 R74). -/
theorem decodeOp_eq_none_of_ranges {op : Byte} (h : op.toNat = 0x00 ∨ (0x07 ≤ op.toNat ∧ op.toNat ≤ 0x0F) ∨
    (0x16 ≤ op.toNat ∧ op.toNat ≤ 0x1F) ∨ 0x22 ≤ op.toNat) : decodeOp op = none := by
  refine Option.eq_none_iff_forall_ne_some.mpr fun i hi => ?_
  have hranges := opcode_ranges i
  rw [← opcode_of_decodeOp hi] at hranges
  omega

end Sys2Proof

namespace Sys2Proof.Machine

/-- Settles O7: whether the opcode decodes selects the branch of `step`. -/
theorem stepRunsTheDecodedCommand : Obligations.StepRunsTheDecodedCommand := by
  intro s c rest i hpending
  constructor
  · intro hdecode
    exact step_command hpending (decode_cons_eq_ok_iff.mp hdecode).1
  · intro hdecode
    exact step_illegal hpending (decodeOp_eq_none_of_decode_ne_ok hdecode)

/-- Settles O8: the ranges hold no opcode of the table, and an illegal opcode takes the error with code 9. -/
theorem illegalOpcodesRaiseIllegalCommand : Obligations.IllegalOpcodesRaiseIllegalCommand := by
  intro s c rest hpending hop
  exact ⟨_, step_illegal hpending (decodeOp_eq_none_of_ranges hop), State.raisedCode_raise _ .illegalCommand⟩

end Sys2Proof.Machine

/-! ### The encoder's block: its content and its checks (41_hamming_encode.md) -/

namespace Sys2Proof.Machine

/-! #### Where the content stands -/

/-- The content of a codeword is what stands beside its content positions (R121). -/
theorem contentFrom_eq_zipIdx (cw : Bits) (p : Nat) :
    contentFrom p cw = ((cw.zipIdx p).filter fun x => !isParityPos x.2).map Prod.fst := by
  induction cw generalizing p with
  | nil => rfl
  | cons b rest ih =>
    rw [contentFrom, ih, List.zipIdx_cons, List.filter_cons]
    cases isParityPos p <;> simp

/-- The content positions are those beside which the content stands (R54). -/
theorem contentPositions_eq_zipIdx {cfg : Config} {cw : Bits} (hlen : cw.length = cfg.nBits) :
    contentPositions cfg = (cw.zipIdx.filter fun x => !isParityPos x.2).map Prod.snd := by
  rw [contentPositions, ← hlen, List.range_eq_range', ← List.zipIdx_map_snd, List.filter_map]
  rfl

/-- Content bit `j` of a block stands at position `cpos(j)` (R54, R121). -/
theorem stripParity_getElem? {cfg : Config} {blk : Bytes} {j q : Nat} (hlen : blk.length = cfg.dataBytes)
    (hq : cpos cfg j = some q) : (stripParity blk)[j]? = (unpack blk)[q]? := by
  have hbits : (unpack blk).length = cfg.nBits := by rw [unpack_length, hlen]; rfl
  rw [cpos, contentPositions_eq_zipIdx hbits, List.getElem?_map] at hq
  obtain ⟨⟨b, q'⟩, hget, rfl⟩ := Option.map_eq_some_iff.mp hq
  have hmem := List.mem_of_mem_filter (List.mem_of_getElem? hget)
  rw [stripParity, contentFrom_eq_zipIdx, List.getElem?_map, hget]
  exact (List.mem_zipIdx_iff_getElem?.mp hmem).symm

/-! #### What the content is -/

/-- An integer's two bytes unpack to its bits, most significant first (R64, R65). -/
theorem unpack_int16ToBytes_getElem? (x : Half) {j : Nat} (hj : j < 16) :
    (unpack (int16ToBytes x))[j]? = some (x.getLsbD (15 - j)) := by
  rw [unpack_getElem?]
  by_cases hhigh : j < 8
  · have hbyte : (int16ToBytes x)[j / 8]? = some (BitVec.ofNat 8 (x.toNat / 2 ^ 8)) := by
      rw [Nat.div_eq_of_lt hhigh]; rfl
    rw [hbyte, Option.map_some, BitVec.getLsbD_ofNat, Nat.testBit_div_two_pow, BitVec.testBit_toNat,
      Nat.mod_eq_of_lt hhigh, show 7 - j + 8 = 15 - j by omega, decide_eq_true (by omega), Bool.true_and]
  · have hbyte : (int16ToBytes x)[j / 8]? = some (BitVec.ofNat 8 (x.toNat % 2 ^ 8)) := by
      rw [show j / 8 = 1 by omega]; rfl
    rw [hbyte, Option.map_some, BitVec.getLsbD_ofNat, Nat.testBit_mod_two_pow, BitVec.testBit_toNat,
      show 7 - j % 8 = 15 - j by omega, decide_eq_true (by omega), Bool.true_and, Bool.true_and]

/-- Payload and zero padding: bit `j` is bit `7 - j mod 8` of byte `j div 8`, where bytes past the payload are 0
(R66, R67). -/
theorem unpack_padded_getElem? (payload : Bytes) {n j : Nat} (hj : j < 8 * payload.length + n) :
    (unpack payload ++ List.replicate n false)[j]? = some ((payload.getD (j / 8) 0).getLsbD (7 - j % 8)) := by
  by_cases h : j < 8 * payload.length
  · have hbyte : j / 8 < payload.length := by omega
    rw [List.getElem?_append_left (by simpa using h), unpack_getElem?]
    simp [hbyte]
  · rw [List.getElem?_append_right (by simpa using h), List.getElem?_replicate_of_lt (by simp; omega),
      List.getD_eq_default _ _ (by omega)]
    simp

/-- The content of step 1 is the layout of header, payload and padding (R62, R101). -/
theorem buildContent_getElem? {cfg : Config} (index size : Half) (flag : Byte) {payload : Bytes} {j : Nat}
    (hlen : payload.length ≤ cfg.dataBytesValid) (hj : j < cfg.contentBits) :
    (buildContent cfg index size flag payload)[j]? = some (layoutBit index size flag payload j) := by
  have hfit := Config.content_fits cfg
  have hhdr : headerBytes = 5 := rfl
  have hindex : (unpack (int16ToBytes index)).length = 16 := by simp [int16ToBytes]
  have hsize : (unpack (int16ToBytes size)).length = 16 := by simp [int16ToBytes]
  simp only [buildContent, unpack_append, unpack_cons, unpack_nil, List.append_nil, List.append_assoc, layoutBit]
  by_cases h1 : j < 16
  · rw [List.getElem?_append_left (by omega), unpack_int16ToBytes_getElem? index h1, if_pos h1]
  rw [List.getElem?_append_right (by omega), if_neg h1, hindex]
  by_cases h2 : j < 32
  · rw [List.getElem?_append_left (by omega), unpack_int16ToBytes_getElem? size (by omega), if_pos h2,
      show 15 - (j - 16) = 31 - j by omega]
  rw [List.getElem?_append_right (by omega), if_neg h2, hsize, show j - 16 - 16 = j - 32 by omega]
  by_cases h3 : j < 40
  · rw [List.getElem?_append_left (by simp; omega), byteToBits_getElem?, if_pos (by omega), if_pos h3,
      show 7 - (j - 32) = 39 - j by omega]
  rw [List.getElem?_append_right (by simp; omega), if_neg h3, byteToBits_length, show j - 32 - 8 = j - 40 by omega]
  exact unpack_padded_getElem? payload (by omega)

/-! #### Encoded blocks -/

/-- Settles O22: the block is `protect` of a content of `CONTENT_BITS` bits, of which `protect_spec` says all this. -/
theorem encodedBlocksAreValidCodewords : Obligations.EncodedBlocksAreValidCodewords := by
  intro cfg index flag payload pkt h
  obtain ⟨hlen, -, -, -, -, hblock⟩ := encodeFn_inv h
  obtain ⟨hblen, hsyn, hpar, hstrip⟩ := protect_spec cfg _ (buildContent_length cfg index _ flag payload hlen)
  rw [hblock]
  exact ⟨hblen, (validCodeword_iff _).mpr ⟨hsyn, hpar⟩, hsyn, hpar, hstrip⟩

/-- Settles O21: stripping gives back the content that was built (O22), and its bit `j` stands at `cpos(j)`. -/
theorem encodedContentFollowsTheLayout : Obligations.EncodedContentFollowsTheLayout := by
  intro cfg index flag payload pkt h
  obtain ⟨hlen, -, -, hsize, -, -⟩ := encodeFn_inv h
  obtain ⟨hblen, -, -, -, hstrip⟩ := encodedBlocksAreValidCodewords cfg index flag payload pkt h
  refine ⟨by rw [hsize, (size_toInt hlen).1], fun j q hq => ?_⟩
  have hj : j < cfg.contentBits := by
    obtain ⟨hlt, -⟩ := List.getElem?_eq_some_iff.mp hq
    rwa [contentPositions_length] at hlt
  rw [getBit_eq, ← stripParity_getElem? hblen hq, hstrip, hsize, buildContent_getElem? index _ flag hlen hj]

end Sys2Proof.Machine

/-! ### The minimum distance of the code (30 R61, 41 R110) -/

namespace Sys2Proof.Machine

/-- The syndrome of a difference is the difference of the syndromes (R103). -/
theorem syndromeFrom_zipWith_xor (p : Nat) {u v : Bits} (h : u.length = v.length) :
    syndromeFrom p (List.zipWith xor u v) = syndromeFrom p u ^^^ syndromeFrom p v := by
  induction u generalizing p v with
  | nil => simp [List.length_eq_zero_iff.mp h.symm, syndromeFrom]
  | cons b u ih =>
    cases v with
    | nil => simp at h
    | cons c v =>
      simp only [List.zipWith_cons_cons, syndromeFrom, ih (p + 1) (by simpa using h)]
      have hbit : (if (b ^^ c) then p else 0) = (if b then p else 0) ^^^ (if c then p else 0) := by
        cases b <;> cases c <;> simp
      rw [hbit]
      ac_rfl

/-- The parity of a difference is the difference of the parities (R105). -/
theorem totalParity_zipWith_xor {u v : Bits} (h : u.length = v.length) :
    totalParity (List.zipWith xor u v) = (totalParity u ^^ totalParity v) := by
  induction u generalizing v with
  | nil => cases List.length_eq_zero_iff.mp h.symm; rfl
  | cons b u ih =>
    cases v with
    | nil => simp at h
    | cons c v =>
      simp only [List.zipWith_cons_cons, totalParity, ih (by simpa using h)]
      cases b <;> cases c <;> simp

/-- The positions at which two blocks differ, in ascending order. -/
def diffPositions (a b : Memory) : List Nat :=
  (List.range (8 * a.length)).filter fun p => (getBit a p).toOption != (getBit b p).toOption

/-- Two blocks differ where the difference of their codewords is set. -/
theorem diffPositions_eq {a b : Memory} (h : a.length = b.length) :
    diffPositions a b = (List.range (List.zipWith xor (unpack a) (unpack b)).length).filter
      fun p => (List.zipWith xor (unpack a) (unpack b))[p]? == some true := by
  have hlen : (List.zipWith xor (unpack a) (unpack b)).length = 8 * a.length := by simp [h]
  rw [diffPositions, hlen]
  refine List.filter_congr fun p hp => ?_
  have hpa : p < (unpack a).length := by simpa using hp
  have hpb : p < (unpack b).length := by simpa [← h] using hp
  rw [getBit_toOption, getBit_toOption, List.getElem?_zipWith, List.getElem?_eq_getElem hpa,
    List.getElem?_eq_getElem hpb]
  cases (unpack a)[p] <;> cases (unpack b)[p] <;> rfl

/-- Between two valid codewords the positions that differ have exclusive-or 0 and are even in number: a valid codeword
plus a valid codeword is one (R61). -/
theorem diffPositions_of_validCodeword {a b : Memory} (h : a.length = b.length) (ha : ValidCodeword a)
    (hb : ValidCodeword b) : Channel.xorOf (diffPositions a b) = 0 ∧ (diffPositions a b).length % 2 = 0 := by
  obtain ⟨hsa, hpa⟩ := (validCodeword_iff a).mp ha
  obtain ⟨hsb, hpb⟩ := (validCodeword_iff b).mp hb
  have hlen : (unpack a).length = (unpack b).length := by simp [h]
  have hsyn := syndromeFrom_zipWith_xor 0 hlen
  have hpar := totalParity_zipWith_xor hlen
  rw [syndromeFrom_eq_xorOf, ← diffPositions_eq h, ← syndrome, ← syndrome, hsa, hsb] at hsyn
  rw [totalParity_eq_count, ← diffPositions_eq h, hpa, hpb] at hpar
  constructor
  · simpa using hsyn
  · simpa using hpar

theorem diffPositions_ne_nil {a b : Memory} (h : a.length = b.length) (hne : a ≠ b) : diffPositions a b ≠ [] := by
  intro hnil
  refine hne (unpack_injective (List.ext_getElem? fun p => ?_))
  by_cases hp : p < 8 * a.length
  · have := List.filter_eq_nil_iff.mp hnil p (List.mem_range.mpr hp)
    simpa [getBit_toOption] using this
  · rw [List.getElem?_eq_none (by simpa using hp), List.getElem?_eq_none (by simpa [← h] using hp)]

/-- Distinct positions, even in number, whose exclusive-or is 0, are none or at least four: two would be equal. -/
theorem four_le_length_of_xorOf_eq_zero {l : List Nat} (hne : l ≠ []) (hnodup : l.Nodup)
    (hxor : Channel.xorOf l = 0) (heven : l.length % 2 = 0) : 4 ≤ l.length := by
  match l with
  | [] => exact absurd rfl hne
  | [_] | [_, _, _] => simp at heven
  | [p, q] =>
    have hpq : p = q := by simpa [Channel.xorOf, Nat.xor_eq_zero_iff] using hxor
    simp [hpq] at hnodup
  | _ :: _ :: _ :: _ :: _ => simp

/-- Settles O24: the positions at which two valid codewords differ are a valid codeword's, and not none. -/
theorem distinctCodewordsDifferInFourPositions : Obligations.DistinctCodewordsDifferInFourPositions := by
  intro a b hlen hne ha hb
  obtain ⟨hxor, heven⟩ := diffPositions_of_validCodeword hlen ha hb
  exact four_le_length_of_xorOf_eq_zero (diffPositions_ne_nil hlen hne) (List.nodup_range.filter _) hxor heven

end Sys2Proof.Machine

/-! ### The bit/byte utilities (40_bit_byte_utilities.md) -/

namespace Sys2Proof.Machine

/-! #### A byte sequence as a number -/

/-- The number a byte sequence stands for, first byte most significant: what `bytesToInt16` and `bytesToInt32` read
before the sign (`bytesToInt16_of_length`, `bytesToInt32_of_length`). -/
def bytesValue (s : Bytes) : Nat := Nat.ofDigits 256 (s.map BitVec.toNat).reverse

@[simp] theorem bytesValue_nil : bytesValue [] = 0 := rfl

@[simp] theorem bytesValue_cons (b : Byte) (s : Bytes) :
    bytesValue (b :: s) = b.toNat * 256 ^ s.length + bytesValue s := by
  simp only [bytesValue, List.map_cons, List.reverse_cons, Nat.ofDigits_append, Nat.ofDigits_singleton,
    List.length_reverse, List.length_map]
  ring

/-- The bytes of a sequence are digits to the base 256. -/
theorem lt_of_mem_digits (s : Bytes) : ∀ d ∈ (s.map BitVec.toNat).reverse, d < 256 := by
  simp only [List.mem_reverse, List.forall_mem_map]
  exact fun b _ => b.isLt

theorem bytesValue_lt (s : Bytes) : bytesValue s < 256 ^ s.length := by
  simpa [bytesValue] using Nat.ofDigits_lt_base_pow_length (by decide) (lt_of_mem_digits s)

/-- Sequences of one length that stand for the same number are equal. -/
theorem bytesValue_injective {s s' : Bytes} (hlen : s.length = s'.length) (h : bytesValue s = bytesValue s') :
    s = s' := by
  have hdigits := Nat.ofDigits_inj_of_len_eq (by decide) (by simpa using hlen) (lt_of_mem_digits s)
    (lt_of_mem_digits s') h
  exact List.map_injective_iff.mpr (fun _ _ => BitVec.eq_of_toNat_eq) (List.reverse_injective hdigits)

/-- Numbers made of a leading digit and a rest below its weight compare by the digit first. -/
theorem leadingDigit_lt_iff {n a b c d : Nat} (hc : c < n) (hd : d < n) :
    a * n + c < b * n + d ↔ a < b ∨ a = b ∧ c < d := by
  rcases lt_trichotomy a b with h | rfl | h
  · have := Nat.mul_le_mul_right n (Nat.succ_le_of_lt h)
    rw [Nat.succ_mul] at this
    omega
  · omega
  · have := Nat.mul_le_mul_right n (Nat.succ_le_of_lt h)
    rw [Nat.succ_mul] at this
    omega

/-- Byte sequences of one length are ordered lexicographically as the numbers they stand for (R92 b). -/
theorem lex_iff_bytesValue_lt {s s' : Bytes} (hlen : s.length = s'.length) :
    List.Lex (· < ·) (s.map BitVec.toNat) (s'.map BitVec.toNat) ↔ bytesValue s < bytesValue s' := by
  induction s generalizing s' with
  | nil =>
    rw [List.length_eq_zero_iff.mp hlen.symm]
    simp
  | cons b s ih =>
    cases s' with
    | nil => simp at hlen
    | cons b' s' =>
      have hlen' : s.length = s'.length := by simpa using hlen
      rw [List.map_cons, List.map_cons, List.cons_lex_cons_iff, ih hlen', bytesValue_cons, bytesValue_cons, hlen',
        leadingDigit_lt_iff (hlen' ▸ bytesValue_lt s) (bytesValue_lt s')]

/-! #### The conversions by the numbers of their bytes -/

/-- Two bytes convert to the pattern of the number they stand for (R86). -/
theorem bytesToInt16_of_length {s : Bytes} (h : s.length = 2) :
    ∃ x, bytesToInt16 s = .ok x ∧ x.toNat = bytesValue s := by
  match s, h with
  | [hi, lo], _ =>
    refine ⟨_, rfl, ?_⟩
    simp only [bytesValue_cons, bytesValue_nil, List.length_cons, List.length_nil, BitVec.toNat_ofNat]
    omega

theorem bytesToInt16_of_length_ne {s : Bytes} (h : s.length ≠ 2) : bytesToInt16 s = .error .lengthError := by
  unfold bytesToInt16
  split
  · simp at h
  · rfl

/-- Four bytes convert to the pattern of the number they stand for (R90). -/
theorem bytesToInt32_of_length {s : Bytes} (h : s.length = 4) :
    ∃ x, bytesToInt32 s = .ok x ∧ x.toNat = bytesValue s := by
  match s, h with
  | [b3, b2, b1, b0], _ =>
    refine ⟨_, rfl, ?_⟩
    simp only [bytesValue_cons, bytesValue_nil, List.length_cons, List.length_nil, BitVec.toNat_ofNat]
    omega

theorem bytesToInt32_of_length_ne {s : Bytes} (h : s.length ≠ 4) : bytesToInt32 s = .error .lengthError := by
  unfold bytesToInt32
  split
  · simp at h
  · rfl

@[simp] theorem bytesValue_int16ToBytes (x : Half) : bytesValue (int16ToBytes x) = x.toNat := by
  have := x.isLt
  simp only [int16ToBytes, bytesValue_cons, bytesValue_nil, List.length_cons, List.length_nil, BitVec.toNat_ofNat]
  omega

@[simp] theorem bytesValue_int32ToBytes (x : Word) : bytesValue (int32ToBytes x) = x.toNat := by
  have := x.isLt
  simp only [int32ToBytes, bytesValue_cons, bytesValue_nil, List.length_cons, List.length_nil, BitVec.toNat_ofNat]
  omega

theorem lex_int16ToBytes_iff (x y : Half) :
    List.Lex (· < ·) ((int16ToBytes x).map BitVec.toNat) ((int16ToBytes y).map BitVec.toNat) ↔ x.toNat < y.toNat := by
  rw [lex_iff_bytesValue_lt (by rfl), bytesValue_int16ToBytes, bytesValue_int16ToBytes]

theorem lex_int32ToBytes_iff (x y : Word) :
    List.Lex (· < ·) ((int32ToBytes x).map BitVec.toNat) ((int32ToBytes y).map BitVec.toNat) ↔ x.toNat < y.toNat := by
  rw [lex_iff_bytesValue_lt (by rfl), bytesValue_int32ToBytes, bytesValue_int32ToBytes]

/-! #### Integers and their patterns -/

/-- The two's complement value of a pattern by its number (R10). -/
theorem toInt_eq_if_toNat_lt {w : Nat} (x : BitVec (w + 1)) :
    x.toInt = if (x.toNat : Int) < 2 ^ w then (x.toNat : Int) else x.toNat - 2 ^ (w + 1) := by
  have hsign : 2 * x.toNat < 2 ^ (w + 1) ↔ (x.toNat : Int) < 2 ^ w := by
    rw [pow_succ]
    norm_cast
    omega
  simp [BitVec.toInt_eq_toNat_cond, hsign]

/-- Within one sign the integers are ordered as their patterns read without sign. -/
theorem toInt_lt_iff_toNat_lt {w : Nat} {x y : BitVec w} (h : 0 ≤ x.toInt ↔ 0 ≤ y.toInt) :
    x.toInt < y.toInt ↔ x.toNat < y.toNat := by
  have hmsb : x.msb = y.msb := by
    rw [BitVec.msb_eq_toInt, BitVec.msb_eq_toInt, decide_eq_decide, ← not_le, ← not_le, h]
  simpa [hmsb, BitVec.slt, BitVec.ult] using BitVec.slt_eq_ult (x := x) (y := y)

/-- Across the sign they are ordered the other way: a negative pattern has its top bit set. -/
theorem toNat_lt_toNat_of_signs {w : Nat} {x y : BitVec w} (hx : x.toInt < 0) (hy : 0 ≤ y.toInt) :
    y.toNat < x.toNat := by
  have hxm : x.msb = true := by simpa [BitVec.msb_eq_toInt] using hx
  have hym : y.msb = false := by simpa [BitVec.msb_eq_toInt] using hy
  have hlt : ¬ y.toInt < x.toInt := by omega
  simpa [hxm, hym, BitVec.slt, BitVec.ult, hlt] using BitVec.slt_eq_ult (x := y) (y := x)

/-! #### A bit sequence as a number -/

theorem bitsValue_concat (s : Bits) (b : Bit) : bitsValue (s ++ [b]) = 2 * bitsValue s + b.toNat := by
  simp [bitsValue]

theorem bitsValue_lt (s : Bits) : bitsValue s < 2 ^ s.length := by
  induction s using List.reverseRecOn with
  | nil => decide
  | append_singleton s b ih =>
    rw [bitsValue_concat, List.length_append, List.length_singleton, pow_succ]
    have := b.toNat_le
    omega

/-- The weighted sum of R82. -/
theorem bitsValue_eq_sum (s : Bits) :
    bitsValue s = ∑ k ∈ Finset.range s.length, (s.getD k false).toNat * 2 ^ (s.length - 1 - k) := by
  induction s using List.reverseRecOn with
  | nil => rfl
  | append_singleton s b ih =>
    rw [bitsValue_concat, ih, List.length_append, List.length_singleton, Finset.sum_range_succ, Finset.mul_sum]
    congr 1
    · refine Finset.sum_congr rfl fun k hk => ?_
      have hk := Finset.mem_range.mp hk
      rw [List.getD_append _ _ _ _ hk, show s.length + 1 - 1 - k = s.length - 1 - k + 1 by omega, pow_succ]
      ring
    · simp

/-! #### Answers -/

/-- A response reports success and changes nothing else. -/
theorem State.answered_respond (s : State) (r : Response) : Answered s (s.respond r) r :=
  ⟨⟨rfl, rfl, rfl, rfl, rfl, rfl⟩, rfl, rfl⟩

/-- A command that answers with a converted operand, where the conversion is defined. -/
theorem State.answered_finish_map {α : Type} {x : Except Err α} {a : α} (s : State) (h : x = .ok a)
    (f : α → Response) : Answered s (s.finish (x.map f)) (f a) := by
  subst h
  exact s.answered_respond (f a)

/-- Where the conversion is not defined, its error is raised. -/
theorem State.raisedCode_finish_map {α : Type} {x : Except Err α} {e : Err} (s : State) (h : x = .error e)
    (f : α → Response) : RaisedCode s (s.finish (x.map f)) e.code := by
  subst h
  exact s.raisedCode_raise e

theorem Operand.oneByte_of_length_ne {c : Command} (h : c.bytes.length ≠ 1) :
    Operand.oneByte c = .error .lengthError := by
  unfold Operand.oneByte
  split
  · next b hb => simp [hb] at h
  · rfl

/-! #### The statements -/

/-- Settles O18: of one length, a byte sequence is fixed by its number, which the integer conversions keep. -/
theorem conversionsAreInverse : Obligations.ConversionsAreInverse := by
  refine ⟨bitsToByte_byteToBits, fun s hs => ?_, bytesToInt16_int16ToBytes, fun s hs => ?_, fun x => ?_,
    fun s hs => ?_⟩
  · match s, hs with
    | [b7, b6, b5, b4, b3, b2, b1, b0], _ => exact ⟨_, rfl, byteToBits_bitsValue b7 b6 b5 b4 b3 b2 b1 b0⟩
  · obtain ⟨x, hx, hval⟩ := bytesToInt16_of_length hs
    exact ⟨x, hx, bytesValue_injective hs.symm (by rw [bytesValue_int16ToBytes, hval])⟩
  · obtain ⟨y, hy, hval⟩ := bytesToInt32_of_length (s := int32ToBytes x) rfl
    rw [hy, BitVec.eq_of_toNat_eq (hval.trans (bytesValue_int32ToBytes x))]
  · obtain ⟨x, hx, hval⟩ := bytesToInt32_of_length hs
    exact ⟨x, hx, bytesValue_injective hs.symm (by rw [bytesValue_int32ToBytes, hval])⟩

/-- Settles O19: the bytes order as the patterns read without sign, and these as the integers within one sign. -/
theorem conversionsKeepOrderWithinOneSign : Obligations.ConversionsKeepOrderWithinOneSign := by
  refine ⟨fun x y hsign => ?_, fun x y hsign => ?_, fun x y hx hy => ?_⟩
  · exact (toInt_lt_iff_toNat_lt hsign).trans (lex_int16ToBytes_iff x y).symm
  · exact (toInt_lt_iff_toNat_lt hsign).trans (lex_int32ToBytes_iff x y).symm
  · exact (lex_int16ToBytes_iff y x).mpr (toNat_lt_toNat_of_signs hx hy)

/-- Settles O12: the bits are `byteToBits`, read element by element; any other length has no byte to read. -/
theorem byte2BitsGivesBitsMostSignificantFirst : Obligations.Byte2BitsGivesBitsMostSignificantFirst := by
  intro s
  refine ⟨fun b hb => ?_, fun hlen => ?_⟩
  · have hone : Operand.oneByte s.cmd = .ok b := by rw [Operand.oneByte, hb]
    refine ⟨_, byteToBits b, rfl, byteToBits_length b, fun k hk => ?_, s.answered_finish_map hone _⟩
    rw [byteToBits_getElem?, if_pos hk]
  · exact ⟨_, rfl, s.raisedCode_finish_map (Operand.oneByte_of_length_ne hlen) _⟩

/-- Settles O13: eight bits have a number below 256, which is the weighted sum. -/
theorem bits2ByteGivesWeightedSum : Obligations.Bits2ByteGivesWeightedSum := by
  intro s
  refine ⟨fun hlen => ⟨_, rfl, ?_⟩, fun hlen => ?_⟩
  · have hvalue : (BitVec.ofNat 8 (bitsValue s.cmd.bits)).toNat =
        ∑ k ∈ Finset.range 8, (s.cmd.bits.getD k false).toNat * 2 ^ (7 - k) := by
      have hlt := bitsValue_lt s.cmd.bits
      rw [hlen] at hlt
      rw [BitVec.toNat_ofNat, Nat.mod_eq_of_lt hlt, bitsValue_eq_sum, hlen]
    rw [← hvalue]
    exact s.answered_finish_map (if_pos hlen) _
  · exact ⟨_, rfl, s.raisedCode_finish_map (if_neg hlen) _⟩

/-- Settles O14: the number of the two bytes is the operand's low half. -/
theorem int16ToBytesIsBigEndian : Obligations.Int16ToBytesIsBigEndian := by
  intro s
  have hhalf : (Operand.half s.cmd).toNat = s.cmd.value.toNat % 65536 := by simp [Operand.half]
  refine ⟨_, _, _, rfl, s.answered_respond _, ?_⟩
  simp only [BitVec.toNat_ofNat, hhalf]
  omega

/-- Settles O15: the sign is decided by the number of the two bytes. -/
theorem bytesToInt16IsSignedBigEndian : Obligations.BytesToInt16IsSignedBigEndian := by
  intro s
  refine ⟨fun hi lo hbytes => ⟨_, rfl, ?_⟩, fun hlen => ?_⟩
  · intro v
    obtain ⟨x, hx, hval⟩ := bytesToInt16_of_length (s := [hi, lo]) rfl
    have hv : (x.toNat : Int) = v := by simp [hval, v]
    rw [← hv, ← toInt_eq_if_toNat_lt x]
    exact s.answered_finish_map (hbytes ▸ hx) _
  · exact ⟨_, rfl, s.raisedCode_finish_map (bytesToInt16_of_length_ne hlen) _⟩

/-- Settles O16: the four bytes are the operand's digits to the base 256, each below the base. -/
theorem int32ToBytesIsBigEndian : Obligations.Int32ToBytesIsBigEndian := by
  intro s
  refine ⟨_, _, _, _, _, rfl, s.answered_respond _, ?_⟩
  simp only [BitVec.toNat_ofNat]
  omega

/-- Settles O17: as O15, with the number of the four bytes. -/
theorem bytesToInt32IsSignedBigEndian : Obligations.BytesToInt32IsSignedBigEndian := by
  intro s
  refine ⟨fun b3 b2 b1 b0 hbytes => ⟨_, rfl, ?_⟩, fun hlen => ?_⟩
  · intro v
    obtain ⟨x, hx, hval⟩ := bytesToInt32_of_length (s := [b3, b2, b1, b0]) rfl
    have hv : (x.toNat : Int) = v := by simp [hval, v, add_assoc]
    rw [← hv, ← toInt_eq_if_toNat_lt x]
    exact s.answered_finish_map (hbytes ▸ hx) _
  · exact ⟨_, rfl, s.raisedCode_finish_map (bytesToInt32_of_length_ne hlen) _⟩

end Sys2Proof.Machine

/-! ### ENCODE, its parity bits, and the two constant blocks (41_hamming_encode.md) -/

namespace Sys2Proof.Machine

/-! #### The command ENCODE -/

/-- ENCODE of operands that fit loads the packet and answers with its block and header (R109). -/
theorem exec_encode_of_ok {s : State} {pkt : Packet}
    (h : encodeFn s.cfg s.cmd.index s.cmd.flag s.cmd.bytes = .ok pkt) :
    exec .encode s = .next ((s.load pkt).respond (pkt.headerResponse (some pkt.block))) := by
  simp only [exec, execEncode, h]

/-- An error of the encoder is raised, and P is not loaded (R109). -/
theorem exec_encode_of_error {s : State} {e : Err}
    (h : encodeFn s.cfg s.cmd.index s.cmd.flag s.cmd.bytes = .error e) : exec .encode s = .next (s.raise e) := by
  simp only [exec, execEncode, h]

theorem encodeFn_of_too_long {cfg : Config} {payload : Bytes} (h : cfg.dataBytesValid < payload.length) (index : Half)
    (flag : Byte) : encodeFn cfg index flag payload = .error .payloadTooLarge := by
  rw [encodeFn, if_pos h]

theorem encodeFn_of_invalid_flag {cfg : Config} {flag : Byte} {payload : Bytes}
    (hlen : payload.length ≤ cfg.dataBytesValid) (h0 : flag ≠ 0) (h1 : flag ≠ 1) (index : Half) :
    encodeFn cfg index flag payload = .error .invalidFragFlag := by
  rw [encodeFn, if_neg hlen.not_gt, if_pos ⟨h0, h1⟩]

/-- The packet of operands that fit (R108). -/
theorem encodeFn_of_fits {cfg : Config} {flag : Byte} {payload : Bytes} (hlen : payload.length ≤ cfg.dataBytesValid)
    (hflag : flag = 0 ∨ flag = 1) (index : Half) :
    encodeFn cfg index flag payload =
      .ok { block := protect cfg (buildContent cfg index (BitVec.ofNat 16 payload.length) flag payload),
            index := index, size := BitVec.ofNat 16 payload.length, fragFlag := flag } := by
  rw [encodeFn, if_neg hlen.not_gt, if_neg (by tauto)]

/-- Settles O20: one clause for each answer of the encoder; that the block is a valid codeword is O22. -/
theorem encodeLoadsPacketOrRejects : Obligations.EncodeLoadsPacketOrRejects := by
  intro s
  refine ⟨fun hlen hflag => ?_, fun hlong => ?_, fun hlen h0 h1 => ?_⟩
  · have h := encodeFn_of_fits hlen hflag s.cmd.index
    obtain ⟨hblen, hvalid, -⟩ := encodedBlocksAreValidCodewords _ _ _ _ _ h
    obtain ⟨hsize, -⟩ := size_toInt hlen
    exact ⟨_, _, exec_encode_of_ok h, h, rfl, rfl, hsize, rfl, hblen, hvalid, rfl, ⟨rfl, rfl, rfl⟩, rfl⟩
  · exact ⟨_, exec_encode_of_error (encodeFn_of_too_long hlong _ _), s.raisedCode_raise .payloadTooLarge⟩
  · exact ⟨_, exec_encode_of_error (encodeFn_of_invalid_flag hlen h0 h1 _), s.raisedCode_raise .invalidFragFlag⟩

/-! #### The group parities -/

/-- Bit `k` of an exclusive-or is the parity of the numbers that have bit `k` (R103, R104). -/
theorem testBit_xorOf (l : List Nat) (k : Nat) :
    (Channel.xorOf l).testBit k = decide ((l.filter (·.testBit k)).length % 2 = 1) := by
  induction l with
  | nil => simp [Channel.xorOf]
  | cons p l ih =>
    have hcons : Channel.xorOf (p :: l) = p ^^^ Channel.xorOf l := rfl
    rw [hcons, Nat.testBit_xor, ih, List.filter_cons]
    cases p.testBit k
    · simp
    · rw [if_pos rfl, List.length_cons, Bool.true_xor, ← decide_not, decide_eq_decide]
      omega

/-- The numbers that have a bit 0 of their exclusive-or are even in number. -/
theorem even_filter_testBit_of_xorOf_eq_zero {l : List Nat} (h : Channel.xorOf l = 0) (k : Nat) :
    (l.filter (·.testBit k)).length % 2 = 0 := by
  have hbit := testBit_xorOf l k
  rw [h, Nat.zero_testBit, eq_comm, decide_eq_false_iff_not] at hbit
  omega

theorem mem_setPositions_iff {blk : Memory} {p : Nat} : p ∈ setPositions blk ↔ getBit blk p = .ok true := by
  rw [setPositions, List.mem_filter, List.mem_range]
  by_cases hp : p < 8 * blk.length
  · simp [hp, getBit_ok hp, Except.toOption]
  · simp [hp, getBit_error (Nat.le_of_not_lt hp)]

/-- In a group of positions with an even number of set ones, each bit is the parity of the others. -/
theorem getBit_eq_parity_of_even {blk : Memory} {q : Nat} {f : Nat → Bool} (hq : q < 8 * blk.length) (hf : f q = true)
    (heven : ((setPositions blk).filter f).length % 2 = 0) :
    getBit blk q = .ok (decide (((setPositions blk).filter fun p => p != q && f p).length % 2 = 1)) := by
  have hnodup : ((setPositions blk).filter f).Nodup := (List.nodup_range.filter _).filter _
  have hmem : q ∈ (setPositions blk).filter f ↔ getBit blk q = .ok true := by
    rw [List.mem_filter, mem_setPositions_iff, and_iff_left hf]
  rw [← List.filter_filter, ← hnodup.erase_eq_filter, List.length_erase]
  obtain ⟨v, hv⟩ : ∃ v, getBit blk q = .ok v := ⟨_, getBit_ok hq⟩
  cases v with
  | true =>
    have hpos := List.length_pos_of_mem (hmem.mpr hv)
    rw [hv, if_pos (hmem.mpr hv), decide_eq_true (by omega)]
  | false =>
    rw [hv, if_neg (by simp [hmem, hv]), decide_eq_false (by omega)]

/-- Of the parity positions only `2^k` has bit `k` (R104). -/
theorem content_and_testBit_eq (k p : Nat) : (!isParityPos p && p.testBit k) = (p != 2 ^ k && p.testBit k) := by
  by_cases hbit : p.testBit k = true
  · have hiff : isParityPos p = true ↔ p = 2 ^ k := by
      rw [isParityPos_iff]
      constructor
      · rintro (rfl | ⟨j, rfl⟩)
        · simp at hbit
        · rw [Nat.testBit_two_pow, decide_eq_true_iff] at hbit
          rw [hbit]
      · exact fun h => .inr ⟨k, h⟩
    rw [bne, Bool.eq_iff_iff.mpr (hiff.trans beq_iff_eq.symm)]
  · simp [hbit]

/-- Settles O23: the block is a valid codeword (O22), so the set positions with bit `k`, and all of them, are even. -/
theorem encodedParityBitsAreGroupParities : Obligations.EncodedParityBitsAreGroupParities := by
  intro cfg index flag payload pkt h
  obtain ⟨hlen, ⟨hxor, heven⟩, -⟩ := encodedBlocksAreValidCodewords cfg index flag payload pkt h
  have hbits : 8 * pkt.block.length = cfg.nBits := by rw [hlen]; rfl
  constructor
  · intro k hk
    simp only [content_and_testBit_eq]
    exact getBit_eq_parity_of_even (hbits ▸ Config.two_pow_lt cfg k hk) (Nat.testBit_two_pow_self)
      (even_filter_testBit_of_xorOf_eq_zero hxor k)
  · have hpos := Config.nBits_ge cfg
    have hall := getBit_eq_parity_of_even (blk := pkt.block) (q := 0) (f := fun _ => true) (by omega) rfl
      (by rwa [List.filter_true])
    simpa only [Bool.and_true] using hall

/-! #### The block of the empty payload -/

theorem buildContent_zero (cfg : Config) : buildContent cfg 0 0 0 [] = List.replicate cfg.contentBits false := by
  have hlen := buildContent_length cfg 0 0 0 [] (Nat.zero_le _)
  have hzero : buildContent cfg 0 0 0 [] = unpack (List.replicate 5 0#8) ++
      List.replicate (cfg.contentBits - 8 * (headerBytes + 0)) false := rfl
  rw [unpack_replicate_zero, List.replicate_append_replicate] at hzero
  rw [hzero, List.length_replicate] at hlen
  rw [hzero, hlen]

theorem placeContent_replicate_false (ps : List Nat) (n : Nat) :
    placeContent ps (List.replicate n false) = List.replicate ps.length false := by
  induction ps generalizing n with
  | nil => rfl
  | cons p ps ih =>
    rw [List.length_cons, List.replicate_succ]
    cases n with
    | zero => simpa [placeContent] using ih 0
    | succ n =>
      cases h : isParityPos p with
      | true => simp [placeContent, h, ih]
      | false => simp [placeContent, List.replicate_succ, h, ih]

theorem distributeSyndrome_zero (cfg : Config) (cw : Bits) : distributeSyndrome cfg cw 0 = cw := by
  simp [distributeSyndrome]

theorem setGlobalParity_replicate_false (n : Nat) :
    setGlobalParity (List.replicate n false) = List.replicate n false := by
  cases n with
  | zero => rfl
  | succ n => rw [List.replicate_succ, setGlobalParity, totalParity_replicate_false]

/-- A content of zeros is protected by zeros (R112): no group has a set bit. -/
theorem protect_replicate_false (cfg : Config) (n : Nat) :
    protect cfg (List.replicate n false) = List.replicate cfg.dataBytes 0 := by
  have hzeros : insertParity cfg (List.replicate n false) = List.replicate cfg.nBits false := by
    rw [insertParity, placeContent_replicate_false, List.length_range]
  have hsyn : syndrome (List.replicate cfg.nBits false) = 0 := syndromeFrom_replicate_false _ _
  simp only [protect, hzeros, hsyn, distributeSyndrome_zero, setGlobalParity_replicate_false]
  exact (congrArg pack (unpack_replicate_zero cfg.dataBytes)).symm.trans (pack_unpack _)

/-- The empty payload, with index 0 and flag 0 (R112). -/
theorem encodeFn_zero (cfg : Config) : encodeFn cfg 0 0 [] =
    .ok { block := List.replicate cfg.dataBytes 0, index := 0, size := 0, fragFlag := 0 } := by
  rw [encodeFn_of_fits (Nat.zero_le _) (.inl rfl), ← protect_replicate_false cfg cfg.contentBits, ← buildContent_zero]
  rfl

/-! #### The block of `FF` bytes -/

theorem unpack_ones (n : Nat) : unpack (List.replicate n 0xFF) = List.replicate (8 * n) true := by
  induction n with
  | zero => rfl
  | succ n ih =>
    rw [List.replicate_succ, unpack_cons, ih, Nat.mul_succ, Nat.add_comm, ← List.replicate_append_replicate]
    rfl

/-- Every position of a block of ones is set. -/
theorem setPositions_ones (n : Nat) : setPositions (List.replicate n 0xFF) = List.range (8 * n) := by
  rw [setPositions_eq, unpack_ones, List.length_replicate, List.filter_eq_self]
  intro p hp
  rw [List.getElem?_replicate_of_lt (List.mem_range.mp hp)]
  rfl

/-- The exclusive-or of the positions of whole bytes is 0 (R103): that of `0, ..., m` is 0 where `m mod 4 = 3`. -/
theorem xorOf_range_bytes (n : Nat) : Channel.xorOf (List.range (8 * n)) = 0 := by
  cases n with
  | zero => rfl
  | succ n =>
    have hmod : Fin.ofNat 4 (8 * n + 7) = 3 := Fin.ext (show (8 * n + 7) % 4 = 3 by omega)
    rw [Channel.xorOf, ← List.foldl_eq_foldr, Nat.mul_succ, Nat.xor_range, hmod]

/-- A block of `FF` bytes is a valid codeword (R61, R112), at every size, not only where `N_BITS` is a power of two. -/
theorem validCodeword_ones (n : Nat) : ValidCodeword (List.replicate n 0xFF) := by
  rw [ValidCodeword, setPositions_ones, xorOf_range_bytes, List.length_range]
  exact ⟨rfl, by omega⟩

/-- Stripping only drops bits (R121). -/
theorem contentFrom_sublist (cw : Bits) (p : Nat) : (contentFrom p cw).Sublist cw := by
  induction cw generalizing p with
  | nil => exact .slnil
  | cons b rest ih =>
    rw [contentFrom]
    split
    · exact (ih _).cons _
    · exact (ih _).cons_cons _

theorem stripParity_ones (cfg : Config) :
    stripParity (List.replicate cfg.dataBytes 0xFF) = List.replicate cfg.contentBits true := by
  have hlen := stripParity_length cfg (List.replicate cfg.dataBytes 0xFF) List.length_replicate
  refine List.eq_replicate_of_mem ?_ |>.trans (by rw [hlen])
  intro b hb
  have hmem := (contentFrom_sublist _ 0).subset hb
  rw [unpack_ones] at hmem
  exact List.eq_of_mem_replicate hmem

theorem contentByte_ones {n m : Nat} (h : 8 * m + 8 ≤ n) : contentByte (List.replicate n true) m = .ok 0xFF := by
  rw [contentByte, List.drop_replicate, List.take_replicate, Nat.min_eq_left (by omega)]
  rfl

/-- The header of ones has size -1 (R122). -/
theorem readHeader_ones {n : Nat} (h : 40 ≤ n) :
    readHeader (List.replicate n true) = .ok { index := -1, size := -1, fragFlag := 0xFF } :=
  readHeader_of_bytes (contentByte_ones (by omega)) (contentByte_ones (by omega)) (contentByte_ones (by omega))
    (contentByte_ones (by omega)) (contentByte_ones (by omega)) rfl rfl

/-- The size -1 is out of range (R129). -/
theorem extractPayload_ones (cfg : Config) :
    extractPayload cfg (List.replicate cfg.dataBytes 0xFF) = .error .sizeOutOfRange := by
  have hfit := Config.content_fits cfg
  have hhdr : headerBytes = 5 := rfl
  have hneg : (-1 : Half).toInt < 0 := by decide
  simp only [extractPayload, stripParity_ones, readHeader_ones (show 40 ≤ cfg.contentBits by omega),
    if_pos (Or.inl hneg)]

/-- TOPAYLOAD of a block without a syndrome, whose content is rejected, raises that error (R132). -/
theorem exec_topayload_of_extractPayload_error {s : State} {pkt : Packet} {e : Err} (hp : s.p = some pkt)
    (hsyn : syndrome (unpack pkt.block) = 0) (he : extractPayload s.cfg pkt.block = .error e) :
    exec .topayload s = .next (((s.load pkt).recordOutcome .noErrorFound).raise e) := by
  have hstep : toPayloadStep s pkt = ((s.load pkt).recordOutcome .noErrorFound, .error e) := by
    simp [toPayloadStep, selfCorrectFn_of_syndrome_eq_zero hsyn, he]
  simp only [exec, execTopayload, State.withPacket, hp, hstep]

/-- Settles O25: zeros protect zeros; the block of `FF` bytes has syndrome 0, and its header has size -1. -/
theorem allZeroAndAllOneBlocks : Obligations.AllZeroAndAllOneBlocks := by
  refine ⟨encodeFn_zero, fun s pkt k hp _ hblock => ?_⟩
  have hvalid : ValidCodeword pkt.block := hblock ▸ validCodeword_ones s.cfg.dataBytes
  have hreject : extractPayload s.cfg pkt.block = .error .sizeOutOfRange := hblock ▸ extractPayload_ones s.cfg
  obtain ⟨hsyn, -⟩ := (validCodeword_iff pkt.block).mp hvalid
  exact ⟨hvalid, _, exec_topayload_of_extractPayload_error hp hsyn hreject, rfl⟩

end Sys2Proof.Machine

/-! ### The decoder: SYNDROME, PARITY, SELFCORRECT and TOPAYLOAD (42_decode_correct.md) -/

namespace Sys2Proof.Machine

/-! #### The verdicts of self-correction -/

/-- Odd parity: the position that the syndrome names is flipped (R125 b). -/
theorem selfCorrectFn_of_odd {blk blk' : Memory} (hsyn : syndrome (unpack blk) ≠ 0)
    (hpar : totalParity (unpack blk) = true) (hflip : flipBit blk (syndrome (unpack blk)) = .ok blk') :
    selfCorrectFn blk = .ok (blk', .corrected (syndrome (unpack blk))) := by
  simp [selfCorrectFn, hsyn, hpar, hflip, Except.map]

/-- Odd parity and a syndrome that names no position of the block (R125 d). -/
theorem selfCorrectFn_of_outside {blk : Memory} (hsyn : syndrome (unpack blk) ≠ 0)
    (hpar : totalParity (unpack blk) = true) (hout : 8 * blk.length ≤ syndrome (unpack blk)) :
    selfCorrectFn blk = .error .boundsError := by
  simp [selfCorrectFn, hsyn, hpar, flipBit_error hout, Except.map]

/-- Even parity with a syndrome: uncorrectable (R125 c). -/
theorem selfCorrectFn_of_even {blk : Memory} (hsyn : syndrome (unpack blk) ≠ 0)
    (hpar : totalParity (unpack blk) = false) : selfCorrectFn blk = .ok (blk, .uncorrectableDoubleError) := by
  simp [selfCorrectFn, hsyn, hpar]

/-- An uncorrectable block is left unchanged (R125 c). -/
theorem eq_of_selfCorrectFn_uncorrectable {blk b : Memory}
    (h : selfCorrectFn blk = .ok (b, .uncorrectableDoubleError)) : b = blk := by
  obtain ⟨-, ⟨-, hb⟩ | ⟨-, hb⟩ | ⟨p, ho, -⟩⟩ := selfCorrectFn_ok h
  · exact hb
  · exact hb
  · cases ho

/-- Every flip of an odd block at the position its syndrome names makes it a valid codeword, right or wrong (R127). -/
theorem validCodeword_of_odd_correction {blk blk' : Memory} (hpar : totalParity (unpack blk) = true)
    (hflip : flipBit blk (syndrome (unpack blk)) = .ok blk') : ValidCodeword blk' := by
  obtain ⟨hlt, -, hun⟩ := flipBit_inv hflip
  rw [validCodeword_iff, syndrome_flipBit_syndrome hflip, hun, totalParity_flip _ _ hlt, hpar]
  exact ⟨rfl, rfl⟩

/-! #### What each command answers -/

section

variable {s : State} {pkt : Packet}

/-- SYNDROME by the set positions (R123). -/
theorem exec_syndrome (hp : s.p = some pkt) :
    exec .syndrome s = .next (s.respond { value := some (Channel.xorOf (setPositions pkt.block) : Nat) }) := by
  simp only [exec, execSyndrome, State.withPacket, hp, syndrome_eq_xorOf]

/-- PARITY by the number of set positions (R124). -/
theorem exec_parity (hp : s.p = some pkt) :
    exec .parity s = .next (s.respond { value := some ((setPositions pkt.block).length % 2 : Nat) }) := by
  have hmod : (totalParity (unpack pkt.block)).toNat = (setPositions pkt.block).length % 2 := by
    rw [totalParity_eq_setPositions]
    rcases Nat.mod_two_eq_zero_or_one (setPositions pkt.block).length with h | h <;> rw [h] <;> rfl
  simp only [exec, execParity, State.withPacket, hp, hmod]

/-- SELFCORRECT keeps the header cache and records the outcome (R126). -/
theorem exec_selfcorrect_eq {b : Memory} {o : CorrectionOutcome} (hp : s.p = some pkt)
    (hb : selfCorrectFn pkt.block = .ok (b, o)) : exec .selfcorrect s =
      .next (((s.load { pkt with block := b }).recordOutcome o).respond { outcome := some o.code }) := by
  simp only [exec, execSelfcorrect, State.withPacket, hp, hb]

/-- A correction outside the block is raised, and changes nothing else (R125 d, R126). -/
theorem exec_selfcorrect_of_error {e : Err} (hp : s.p = some pkt) (he : selfCorrectFn pkt.block = .error e) :
    exec .selfcorrect s = .next (s.raise e) := by
  simp only [exec, execSelfcorrect, State.withPacket, hp, he]

/-- TOPAYLOAD answers what its working step leaves (R132). -/
theorem exec_topayload_eq (hp : s.p = some pkt) : exec .topayload s =
    .next ((toPayloadStep s pkt).1.finish ((toPayloadStep s pkt).2.map fun x => x.1.headerResponse (some x.2))) := by
  simp only [exec, execTopayload, State.withPacket, hp]
  rcases toPayloadStep s pkt with ⟨s1, e | ⟨pkt', payload⟩⟩ <;> rfl

/-- TOPAYLOAD where self-correction leaves the block (R125 d, R132). -/
theorem exec_topayload_of_correction_error {e : Err} (hp : s.p = some pkt) (he : selfCorrectFn pkt.block = .error e) :
    exec .topayload s = .next (s.raise e) := by
  have hstep : toPayloadStep s pkt = (s, .error e) := by simp only [toPayloadStep, he]
  rw [exec_topayload_eq hp, hstep]
  rfl

/-- TOPAYLOAD of an uncorrectable block (R128). -/
theorem exec_topayload_of_uncorrectable {b : Memory} (hp : s.p = some pkt)
    (hb : selfCorrectFn pkt.block = .ok (b, .uncorrectableDoubleError)) : exec .topayload s =
      .next (((s.load { pkt with block := b }).recordOutcome .uncorrectableDoubleError).raise .uncorrectableError) := by
  have hstep : toPayloadStep s pkt =
      ((s.load { pkt with block := b }).recordOutcome .uncorrectableDoubleError, .error .uncorrectableError) := by
    simp only [toPayloadStep, hb, if_true]
  rw [exec_topayload_eq hp, hstep]
  rfl

/-- TOPAYLOAD of a corrected block whose content is rejected: the correction is kept, and the cache too (R129 to
R131). -/
theorem exec_topayload_of_rejected {b : Memory} {o : CorrectionOutcome} {e : Err} (hp : s.p = some pkt)
    (hb : selfCorrectFn pkt.block = .ok (b, o)) (ho : o ≠ .uncorrectableDoubleError)
    (he : extractPayload s.cfg b = .error e) :
    exec .topayload s = .next (((s.load { pkt with block := b }).recordOutcome o).raise e) := by
  have hstep : toPayloadStep s pkt = ((s.load { pkt with block := b }).recordOutcome o, .error e) := by
    simp only [toPayloadStep, hb, if_neg ho, he]
  rw [exec_topayload_eq hp, hstep]
  rfl

/-- TOPAYLOAD of a corrected block whose content is in range (R131, R132). -/
theorem exec_topayload_of_extracted {b : Memory} {o : CorrectionOutcome} {h : Header} {payload : Bytes}
    (hp : s.p = some pkt) (hb : selfCorrectFn pkt.block = .ok (b, o)) (ho : o ≠ .uncorrectableDoubleError)
    (he : extractPayload s.cfg b = .ok (h, payload)) : exec .topayload s =
      .next (((s.load { block := b, index := h.index, size := h.size, fragFlag := h.fragFlag }).recordOutcome o).respond
        { bytes := some payload, index := some h.index, size := some h.size, flag := some h.fragFlag }) := by
  have hstep : toPayloadStep s pkt =
      ((s.load { block := b, index := h.index, size := h.size, fragFlag := h.fragFlag }).recordOutcome o,
        .ok ({ block := b, index := h.index, size := h.size, fragFlag := h.fragFlag }, payload)) := by
    simp only [toPayloadStep, hb, if_neg ho, he]
    rfl
  rw [exec_topayload_eq hp, hstep]
  rfl

/-- PARSE of a block of the right size loads it (R141). -/
theorem exec_parse_of_ok (h : parseFn s.cfg s.cmd.bytes = .ok pkt) :
    exec .parse s = .next ((s.load pkt).respond (pkt.headerResponse none)) := by
  simp only [exec, execParse, h]

end

/-- Settles O28: the two checkers by the set positions, and `NoPacket` from P.valid = 0. -/
theorem checkersReturnSyndromeAndParity : Obligations.CheckersReturnSyndromeAndParity := by
  intro s
  refine ⟨fun pkt hp => ⟨_, exec_syndrome hp, s.answered_respond _⟩,
    fun pkt hp => ⟨_, exec_parity hp, s.answered_respond _⟩, fun hp => ?_⟩
  exact ⟨_, _, exec_noPacket hp (by decide), s.raisedCode_raise .noPacket, exec_noPacket hp (by decide),
    s.raisedCode_raise .noPacket⟩

/-- Settles O29: one verdict of self-correction for each clause. -/
theorem selfCorrectFollowsTheDecisionTree : Obligations.SelfCorrectFollowsTheDecisionTree := by
  intro s pkt hwf hp x odd
  have hx : syndrome (unpack pkt.block) = x := syndrome_eq_xorOf pkt.block
  have hodd : totalParity (unpack pkt.block) = decide odd := totalParity_eq_setPositions pkt.block
  have hbits : 8 * pkt.block.length = s.cfg.nBits := by rw [(Memory.wf_iff _ _).mp (hwf pkt hp)]; rfl
  refine ⟨fun h0 => ?_, fun h0 hpar hin => ?_, fun h0 hpar hout => ?_, fun h0 hpar => ?_⟩
  · exact ⟨_, exec_selfcorrect_eq hp (selfCorrectFn_of_syndrome_eq_zero (hx.trans h0)), hp.symm, rfl, rfl,
      rfl, rfl, rfl⟩
  · obtain ⟨blk, hflip, -, -⟩ := flipBit_ok (hbits ▸ hin)
    have hb := selfCorrectFn_of_odd (hx ▸ h0) (by rw [hodd, decide_eq_true hpar]) (hx ▸ hflip)
    rw [hx] at hb
    exact ⟨_, blk, exec_selfcorrect_eq hp hb, hflip, rfl, rfl, rfl, rfl, rfl, rfl⟩
  · have he := selfCorrectFn_of_outside (hx ▸ h0) (by rw [hodd, decide_eq_true hpar]) (by rw [hx, hbits]; exact hout)
    exact ⟨_, exec_selfcorrect_of_error hp he, s.raisedCode_raise .boundsError⟩
  · have hb := selfCorrectFn_of_even (hx ▸ h0) (by rw [hodd, decide_eq_false hpar])
    exact ⟨_, exec_selfcorrect_eq hp hb, hp.symm, rfl, rfl, rfl, rfl, rfl⟩

/-! #### Encoded blocks with flipped positions -/

/-- Flipping a position twice gives the block back (20 R43). -/
theorem flipBit_flipBit {blk blk' : Memory} {p : Nat} (h : flipBit blk p = .ok blk') : flipBit blk' p = .ok blk := by
  obtain ⟨hp, hlen, hun⟩ := flipBit_inv h
  rw [unpack_length, ← hlen] at hp
  obtain ⟨blk'', h', -, hun'⟩ := flipBit_ok hp
  rw [h', unpack_injective (a := blk'') (b := blk) (by simp [hun', hun])]

/-- A flip of a parity position leaves the content (R121). -/
theorem stripParity_flipBit {blk blk' : Memory} {p : Nat} (h : flipBit blk p = .ok blk') (hp : isParityPos p = true) :
    stripParity blk' = stripParity blk := by
  obtain ⟨_, -, hun⟩ := flipBit_inv h
  rw [stripParity, hun, contentFrom_set_parity _ _ _ _ (by rwa [Nat.zero_add]), stripParity]

theorem corrupt_singleton (blk : Memory) (q : Nat) : Channel.corrupt blk [q] = flipBit blk q := by
  simp [Channel.corrupt]

section

variable {cfg : Config} {orig : Packet} {payload : Bytes} {blk : Memory}

/-- An encoded block from the channel: its checks are those of the flipped positions (R127). -/
theorem corrupt_encoded {flips : List Nat} (henc : Encoded cfg orig payload)
    (h : Channel.corrupt orig.block flips = .ok blk) :
    blk.length = cfg.dataBytes ∧ syndrome (unpack blk) = Channel.xorOf flips ∧
      totalParity (unpack blk) = decide (flips.length % 2 = 1) := by
  obtain ⟨hlen, -, hsyn, hpar, -⟩ := encodedBlocksAreValidCodewords _ _ _ _ _ henc
  obtain ⟨hlen', -, hsyn', hpar'⟩ := corrupt_spec _ _ _ h
  rw [hsyn, Nat.zero_xor] at hsyn'
  rw [hpar, Bool.false_xor] at hpar'
  exact ⟨hlen'.trans hlen, hsyn', hpar'⟩

/-- A single flip at a position other than 0 is undone (R127 row 3). -/
theorem selfCorrectFn_of_single_flip {q : Nat} (henc : Encoded cfg orig payload)
    (h : Channel.corrupt orig.block [q] = .ok blk) (hq : q ≠ 0) :
    selfCorrectFn blk = .ok (orig.block, .corrected q) := by
  obtain ⟨-, hsyn, hpar⟩ := corrupt_encoded henc h
  rw [show Channel.xorOf [q] = q from Nat.xor_zero q] at hsyn
  have hback : flipBit blk q = .ok orig.block := flipBit_flipBit (corrupt_singleton _ q ▸ h)
  have hfix := selfCorrectFn_of_odd (hsyn ▸ hq) hpar (hsyn ▸ hback)
  rwa [hsyn] at hfix

/-- A flip of position 0 is not seen (R127 row 2, C2). -/
theorem selfCorrectFn_of_global_flip (henc : Encoded cfg orig payload)
    (h : Channel.corrupt orig.block [0] = .ok blk) : selfCorrectFn blk = .ok (blk, .noErrorFound) :=
  selfCorrectFn_of_syndrome_eq_zero (corrupt_encoded henc h).2.1

/-- Two flips are seen and left (R127 row 4). -/
theorem selfCorrectFn_of_double_flip {p q : Nat} (henc : Encoded cfg orig payload) (hpq : p ≠ q)
    (h : Channel.corrupt orig.block [p, q] = .ok blk) : selfCorrectFn blk = .ok (blk, .uncorrectableDoubleError) := by
  obtain ⟨-, hsyn, hpar⟩ := corrupt_encoded henc h
  have hxor : Channel.xorOf [p, q] = p ^^^ q := by simp [Channel.xorOf]
  have hne : p ^^^ q ≠ 0 := fun h0 => hpq (Nat.xor_eq_zero_iff.mp h0)
  exact selfCorrectFn_of_even (by rwa [hsyn, hxor]) (by simpa using hpar)

/-- After any one flip, self-correction succeeds and leaves the content that was encoded (R127, R132). -/
theorem selfCorrectFn_of_one_flip {q : Nat} (henc : Encoded cfg orig payload)
    (h : Channel.corrupt orig.block [q] = .ok blk) :
    ∃ b, selfCorrectFn blk = .ok (b, if q = 0 then .noErrorFound else .corrected q) ∧
      stripParity b = stripParity orig.block := by
  by_cases hq : q = 0
  · subst hq
    exact ⟨blk, selfCorrectFn_of_global_flip henc h, stripParity_flipBit (corrupt_singleton _ 0 ▸ h) rfl⟩
  · rw [if_neg hq]
    exact ⟨orig.block, selfCorrectFn_of_single_flip henc h hq, rfl⟩

/-- What is extracted from a block that holds the content of an encoded one (R134). -/
theorem extractPayload_encoded (henc : Encoded cfg orig payload) (hstrip : stripParity blk = stripParity orig.block) :
    extractPayload cfg blk =
      .ok ({ index := orig.index, size := orig.size, fragFlag := orig.fragFlag }, payload) := by
  obtain ⟨hlen, hflag, -, hsize, -, -⟩ := encodeFn_inv henc
  obtain ⟨-, -, -, -, hcontent⟩ := encodedBlocksAreValidCodewords _ _ _ _ _ henc
  rw [hsize]
  exact extractPayload_content cfg blk _ _ payload hlen hflag (hstrip.trans hcontent)

/-- TOPAYLOAD of a block that corrects to one with the content of an encoded block answers what was encoded (R134). -/
theorem exec_topayload_of_encoded_content {s : State} {pkt : Packet} {o : CorrectionOutcome}
    (henc : Encoded s.cfg orig payload) (hp : s.p = some pkt) (hb : selfCorrectFn pkt.block = .ok (blk, o))
    (ho : o ≠ .uncorrectableDoubleError) (hstrip : stripParity blk = stripParity orig.block) :
    exec .topayload s = .next (((s.load { orig with block := blk }).recordOutcome o).respond
      { bytes := some payload, index := some orig.index, size := some orig.size, flag := some orig.fragFlag }) :=
  exec_topayload_of_extracted hp hb ho (extractPayload_encoded henc hstrip)

end

/-- Settles O30: the flip that self-correction makes is the channel's. -/
theorem selfCorrectRepairsASingleFlip : Obligations.SelfCorrectRepairsASingleFlip := by
  intro s pkt orig payload q henc h hq hp
  have hb := selfCorrectFn_of_single_flip henc h (Nat.one_le_iff_ne_zero.mp hq)
  exact ⟨_, exec_selfcorrect_eq hp hb, rfl, rfl, rfl⟩

/-- Settles O39: an encoded block has syndrome 0 and holds the content that was built. -/
theorem toPayloadInvertsEncode : Obligations.ToPayloadInvertsEncode := by
  intro s hlen hflag
  obtain ⟨pkt, h⟩ : ∃ pkt, encodeFn s.cfg s.cmd.index s.cmd.flag s.cmd.bytes = .ok pkt :=
    ⟨_, encodeFn_of_fits hlen hflag _⟩
  obtain ⟨-, -, hindex, hsize, hfrag, -⟩ := encodeFn_inv h
  obtain ⟨-, -, hsyn, -, -⟩ := encodedBlocksAreValidCodewords _ _ _ _ _ h
  have henc : Encoded s.cfg pkt s.cmd.bytes := by rwa [Encoded, hindex, hfrag]
  refine ⟨_, _, exec_encode_of_ok h, exec_topayload_of_encoded_content henc rfl
    (selfCorrectFn_of_syndrome_eq_zero hsyn) (by decide) rfl, rfl, rfl, pkt.size, ?_, ?_⟩
  · rw [hsize, (size_toInt hlen).1]
  · rw [← hindex, ← hfrag]
    rfl

/-- Settles O40: PARSE loads the block as it came, and any one flip leaves its content to self-correction. -/
theorem roundTripSurvivesOneFlip : Obligations.RoundTripSurvivesOneFlip := by
  intro s orig payload q henc h
  obtain ⟨hlen, -⟩ := corrupt_encoded henc h
  obtain ⟨hne, -⟩ | ⟨-, hd, -, hparse⟩ := parseFn_cases s.cfg s.cmd.bytes
  · exact absurd hlen hne
  obtain ⟨b, hb, hstrip⟩ := selfCorrectFn_of_one_flip henc h
  refine ⟨_, _, exec_parse_of_ok hparse, exec_topayload_of_encoded_content henc rfl hb ?_ hstrip, ?_, rfl⟩
  · split_ifs <;> simp
  · split_ifs <;> rfl

/-- Settles O31: position 0 enters neither the syndrome nor the content. -/
theorem globalParityFlipIsNotRepaired : Obligations.GlobalParityFlipIsNotRepaired := by
  intro s pkt orig payload henc h hp
  have hb := selfCorrectFn_of_global_flip henc h
  have hstrip := stripParity_flipBit (corrupt_singleton _ 0 ▸ h) rfl
  exact ⟨⟨_, exec_selfcorrect_eq hp hb, hp.symm, rfl⟩,
    ⟨_, exec_topayload_of_encoded_content henc hp hb (by decide) hstrip, rfl, rfl, rfl⟩⟩

/-- Settles O32: distinct positions have a nonzero exclusive-or, and two flips keep the parity even. -/
theorem anyDoubleFlipIsDetected : Obligations.AnyDoubleFlipIsDetected := by
  intro s pkt orig payload p q henc hpq h hp
  have hb := selfCorrectFn_of_double_flip henc hpq h
  exact ⟨⟨_, exec_selfcorrect_eq hp hb, hp.symm, rfl, rfl⟩,
    ⟨_, exec_topayload_of_uncorrectable hp hb, hp.symm, rfl, rfl⟩⟩

/-- Settles O33: the decision tree of O29 on the checks that `corrupt_encoded` gives. -/
theorem flipTableOfTheDecoder : Obligations.FlipTableOfTheDecoder := by
  intro s pkt orig payload flips henc _ h hp x
  obtain ⟨hlen, hsyn, hpar⟩ := corrupt_encoded henc h
  have hwf : s.BlockWf := by
    intro pkt' hp'
    obtain rfl := Option.some.inj (hp.symm.trans hp')
    exact (Memory.wf_iff _ _).mpr hlen
  have hx : Channel.xorOf (setPositions pkt.block) = x := (syndrome_eq_xorOf _).symm.trans hsyn
  have hodd : (setPositions pkt.block).length % 2 = flips.length % 2 := by
    rw [totalParity_eq_setPositions, decide_eq_decide] at hpar
    omega
  have htree := selfCorrectFollowsTheDecisionTree s pkt hwf hp
  simp only [hx, hodd, Nat.mod_two_not_eq_one] at htree
  obtain ⟨hclean, hflip, hout, heven⟩ := htree
  refine ⟨⟨_, exec_syndrome hp, by rw [hx]; rfl⟩, ⟨_, exec_parity hp, by rw [hodd]; rfl⟩, fun h0 => ?_,
    fun h0 hpar0 => ?_, fun h0 hpar1 hin => ?_, hout⟩
  · obtain ⟨t, hexec, hpt, hst, -⟩ := hclean h0
    exact ⟨t, hexec, hpt, hst⟩
  · obtain ⟨t, hexec, hpt, hst, -⟩ := heven h0 hpar0
    exact ⟨t, hexec, hpt, hst⟩
  · obtain ⟨t, blk, hexec, hblk, hpt, hst, -⟩ := hflip h0 hpar1 hin
    exact ⟨t, _, hexec, hpt, hst, hblk, validCodeword_of_odd_correction (by rw [hpar, decide_eq_true hpar1])
      (by rw [hsyn]; exact hblk)⟩

end Sys2Proof.Machine

/-! ### TOPAYLOAD by the header of the corrected block (42_decode_correct.md) -/

namespace Sys2Proof.Machine

/-! #### What is extracted -/

section

variable {cfg : Config} {blk : Memory} {h : Header}

/-- A size that is negative or too large is rejected, whatever the flag is (R129). -/
theorem extractPayload_of_size_out (hread : readHeader (stripParity blk) = .ok h)
    (hsize : h.size.toInt < 0 ∨ (cfg.dataBytesValid : Int) < h.size.toInt) :
    extractPayload cfg blk = .error .sizeOutOfRange := by
  simp only [extractPayload, hread]
  exact if_pos hsize

/-- A flag outside 0 and 1 is rejected after the size (R130). -/
theorem extractPayload_of_flag_invalid (hread : readHeader (stripParity blk) = .ok h) (hnonneg : 0 ≤ h.size.toInt)
    (hle : h.size.toInt ≤ cfg.dataBytesValid) (h0 : h.fragFlag ≠ 0) (h1 : h.fragFlag ≠ 1) :
    extractPayload cfg blk = .error .invalidFragFlag := by
  simp only [extractPayload, hread]
  rw [if_neg (by omega), if_pos ⟨h0, h1⟩]

/-- A header in range: the `size` bytes after the header are taken (R128, R131). -/
theorem extractPayload_of_valid (hread : readHeader (stripParity blk) = .ok h) (hnonneg : 0 ≤ h.size.toInt)
    (hle : h.size.toInt ≤ cfg.dataBytesValid) (hflag : h.fragFlag = 0 ∨ h.fragFlag = 1) :
    extractPayload cfg blk =
      .ok (h, pack (((stripParity blk).drop (8 * headerBytes)).take (8 * h.size.toNat))) := by
  simp only [extractPayload, hread]
  rw [if_neg (by omega), if_neg (by tauto)]

end

/-- Content byte `k + m` is byte `m` of the content from byte `k` on (30 R63). -/
theorem contentByte_drop (content : Bits) (k m : Nat) :
    contentByte (content.drop (8 * k)) m = contentByte content (k + m) := by
  rw [contentByte, contentByte, List.drop_drop, Nat.mul_add]

/-- Packing `n` bytes of the content, from byte `k` on, gives its content bytes (30 R63, R44). -/
theorem pack_drop_take {content : Bits} {k n : Nat} (hfit : 8 * (k + n) ≤ content.length) :
    (pack ((content.drop (8 * k)).take (8 * n))).length = n ∧
      ∀ (m : Nat) (v : Byte), (pack ((content.drop (8 * k)).take (8 * n)))[m]? = some v →
        contentByte content (k + m) = .ok v := by
  have hlen : ((content.drop (8 * k)).take (8 * n)).length = 8 * n := by
    rw [List.length_take, List.length_drop]
    omega
  refine ⟨pack_length n _ hlen, fun m v hv => ?_⟩
  rw [← contentByte_drop, ← List.take_append_drop (8 * n) (content.drop (8 * k)), ← unpack_pack n _ hlen]
  exact contentByte_unpack hv _

/-- The header is read from the first 40 content bits (R122). -/
theorem readHeader_take (content : Bits) {n : Nat} (hn : 40 ≤ n) : readHeader (content.take n) = readHeader content := by
  have hbyte : ∀ m, m < 5 → contentByte (content.take n) m = contentByte content m := by
    intro m hm
    rw [contentByte, contentByte, List.drop_take, List.take_take, Nat.min_eq_left (by omega)]
  simp only [readHeader, hbyte 0 (by omega), hbyte 1 (by omega), hbyte 2 (by omega), hbyte 3 (by omega),
    hbyte 4 (by omega)]

/-- Extraction reads the content up to the end of the payload that the header names (R133). -/
theorem extractPayload_congr {cfg : Config} {a b : Memory} {h : Header} (hread : readHeader (stripParity a) = .ok h)
    (htake : (stripParity a).take (8 * headerBytes + 8 * h.size.toNat) =
      (stripParity b).take (8 * headerBytes + 8 * h.size.toNat)) : extractPayload cfg a = extractPayload cfg b := by
  have hheader : 40 ≤ 8 * headerBytes + 8 * h.size.toNat := Nat.le_add_right _ _
  have hread' : readHeader (stripParity b) = .ok h := by
    rw [← readHeader_take _ hheader, ← htake, readHeader_take _ hheader, hread]
  have hpayload : ∀ content : Bits, (content.drop (8 * headerBytes)).take (8 * h.size.toNat) =
      (content.take (8 * headerBytes + 8 * h.size.toNat)).drop (8 * headerBytes) := by
    intro content
    rw [List.drop_take, Nat.add_sub_cancel_left]
  simp only [extractPayload, hread, hread', hpayload, htake]

/-! #### The statements -/

/-- Settles O37: the payload is packed from the content after the header, which holds `size` bytes. -/
theorem toPayloadReturnsThePayload : Obligations.ToPayloadReturnsThePayload := by
  intro s pkt b o h hwf hp hb ho hread hnonneg hle hflag
  have hlen : b.length = s.cfg.dataBytes := (selfCorrectFn_ok hb).1.trans ((Memory.wf_iff _ _).mp (hwf pkt hp))
  have hsize : h.size.toInt = h.size.toNat :=
    BitVec.toInt_eq_toNat_of_msb (by rw [BitVec.msb_eq_toInt, decide_eq_false (by omega)])
  have hfit : 8 * (headerBytes + h.size.toNat) ≤ (stripParity b).length := by
    have := Config.content_fits s.cfg
    rw [stripParity_length s.cfg b hlen]
    omega
  obtain ⟨hcount, hbytes⟩ := pack_drop_take hfit
  exact ⟨_, _, exec_topayload_of_extracted hp hb ho (extractPayload_of_valid hread hnonneg hle hflag),
    by rw [hcount, hsize], hbytes, rfl, rfl, ⟨rfl, rfl, rfl⟩, rfl⟩

/-- Settles O38: self-correction fails first, then the size is rejected, then the flag. -/
theorem toPayloadFailsInOrder : Obligations.ToPayloadFailsInOrder := by
  intro s pkt _ hp
  refine ⟨fun e he => ?_, fun b hb => ?_, fun b o h hb ho hread => ⟨fun hsize => ?_, fun hnonneg hle h0 h1 => ?_⟩⟩
  · obtain rfl := selfCorrectFn_error he
    exact ⟨_, exec_topayload_of_correction_error hp he, s.raisedCode_raise .boundsError⟩
  · obtain rfl := eq_of_selfCorrectFn_uncorrectable hb
    exact ⟨_, exec_topayload_of_uncorrectable hp hb, hp.symm, rfl, rfl, rfl, rfl, rfl⟩
  · exact ⟨_, exec_topayload_of_rejected hp hb ho (extractPayload_of_size_out hread hsize),
      rfl, rfl, rfl, rfl, rfl, rfl⟩
  · exact ⟨_, exec_topayload_of_rejected hp hb ho (extractPayload_of_flag_invalid hread hnonneg hle h0 h1),
      rfl, rfl, rfl, rfl, rfl, rfl⟩

/-- Settles O41: both blocks are extracted uncorrected, and extraction reads what they agree on. -/
theorem paddingIsNotRead : Obligations.PaddingIsNotRead := by
  intro s1 s2 pkt1 pkt2 h hcfg _ _ hp1 hp2 hx1 hx2 hread htake
  have hsyn1 : syndrome (unpack pkt1.block) = 0 := (syndrome_eq_xorOf _).trans hx1
  have hsyn2 : syndrome (unpack pkt2.block) = 0 := (syndrome_eq_xorOf _).trans hx2
  have hb1 := selfCorrectFn_of_syndrome_eq_zero hsyn1
  have hb2 := selfCorrectFn_of_syndrome_eq_zero hsyn2
  have hsame : extractPayload s1.cfg pkt1.block = extractPayload s2.cfg pkt2.block :=
    hcfg ▸ extractPayload_congr hread htake
  cases he : extractPayload s1.cfg pkt1.block with
  | error e =>
    exact ⟨_, _, exec_topayload_of_rejected hp1 hb1 (by decide) he,
      exec_topayload_of_rejected hp2 hb2 (by decide) (hsame ▸ he), rfl, rfl⟩
  | ok x =>
    exact ⟨_, _, exec_topayload_of_extracted hp1 hb1 (by decide) he,
      exec_topayload_of_extracted hp2 hb2 (by decide) (hsame ▸ he), rfl, rfl⟩

end Sys2Proof.Machine

/-! ### Which errors a command can raise, and where `BoundsError` can arise (60_exceptions.md R170, R178) -/

namespace Sys2Proof.Machine

/-- At this size there is a block whose self-correction would leave it (42 R125 d). -/
def CorrectionCanLeave (cfg : Config) : Prop :=
  ∃ blk : Memory, blk.length = cfg.dataBytes ∧ selfCorrectFn blk = .error .boundsError

/-- Every error of `x` has one of the codes, and is `BoundsError` only at a size where a correction can leave its
block. -/
def RaisesOnly {α : Type} (cfg : Config) (codes : List (BitVec 8)) (x : Except Err α) : Prop :=
  ∀ e, x = .error e → e.code ∈ codes ∧ (e = .boundsError → CorrectionCanLeave cfg)

section

variable {α β : Type} {cfg : Config} {codes codes' : List (BitVec 8)}

theorem RaisesOnly.ok (a : α) : RaisesOnly cfg codes (.ok a : Except Err α) := fun _ h => nomatch h

theorem RaisesOnly.error {e : Err} (hcode : e.code ∈ codes) (hne : e ≠ .boundsError) :
    RaisesOnly cfg codes (.error e : Except Err α) := by
  rintro _ ⟨⟩
  exact ⟨hcode, fun h => absurd h hne⟩

theorem RaisesOnly.map {x : Except Err α} (hx : RaisesOnly cfg codes x) (f : α → β) :
    RaisesOnly cfg codes (x.map f) := by
  cases x with
  | ok a => exact .ok _
  | error e => rintro _ ⟨⟩; exact hx e rfl

theorem RaisesOnly.mono {x : Except Err α} (hx : RaisesOnly cfg codes x) (h : codes ⊆ codes') :
    RaisesOnly cfg codes' x :=
  fun e he => ⟨h (hx e he).1, (hx e he).2⟩

end

/-- Where `N_BITS` is a power of two every syndrome is a position of the block (R178). -/
theorem not_correctionCanLeave_of_two_pow {cfg : Config} {k : Nat} (h : cfg.nBits = 2 ^ k) :
    ¬CorrectionCanLeave cfg := by
  rintro ⟨blk, hlen, herr⟩
  have hbits : 8 * blk.length = 2 ^ k := by rw [hlen, ← h]; rfl
  have hlt : syndrome (unpack blk) < 8 * blk.length := by
    rw [hbits]
    exact syndrome_lt _ _ (by rw [unpack_length, hbits])
  rcases selfCorrectFn_cases blk with ⟨-, h'⟩ | ⟨-, -, -, b', -, h'⟩ | ⟨-, -, hle, -⟩ | ⟨-, -, h'⟩
  · rw [herr] at h'; cases h'
  · rw [herr] at h'; cases h'
  · omega
  · rw [herr] at h'; cases h'

/-! #### The working functions -/

theorem Operand.oneByte_raisesOnly (cfg : Config) (c : Command) : RaisesOnly cfg [1] (Operand.oneByte c) := by
  unfold Operand.oneByte
  split
  · exact .ok _
  · exact .error (by decide) (by decide)

theorem bitsToByte_raisesOnly (cfg : Config) (s : Bits) : RaisesOnly cfg [1] (bitsToByte s) := by
  unfold bitsToByte
  split
  · exact .ok _
  · exact .error (by decide) (by decide)

theorem bytesToInt16_raisesOnly (cfg : Config) (s : Bytes) : RaisesOnly cfg [1] (bytesToInt16 s) := by
  unfold bytesToInt16
  split
  · exact .ok _
  · exact .error (by decide) (by decide)

theorem bytesToInt32_raisesOnly (cfg : Config) (s : Bytes) : RaisesOnly cfg [1] (bytesToInt32 s) := by
  unfold bytesToInt32
  split
  · exact .ok _
  · exact .error (by decide) (by decide)

theorem extractPayload_raisesOnly {cfg : Config} {blk : Memory} (hlen : blk.length = cfg.dataBytes) :
    RaisesOnly cfg [3, 5] (extractPayload cfg blk) := by
  obtain ⟨hd, -, ⟨-, h⟩ | ⟨-, -, -, -, h⟩ | ⟨-, -, -, h⟩⟩ := extractPayload_cases cfg blk hlen <;> rw [h]
  · exact .error (by decide) (by decide)
  · exact .error (by decide) (by decide)
  · exact .ok _

/-- The working step of TOPAYLOAD raises `BoundsError` when the correction of its own block leaves it. -/
theorem toPayloadStep_raisesOnly {s : State} {pkt : Packet} (hlen : pkt.block.length = s.cfg.dataBytes) :
    RaisesOnly s.cfg [3, 5, 6, 8] (toPayloadStep s pkt).2 := by
  rcases toPayloadStep_cases s pkt with ⟨hb, h⟩ | ⟨b, o, hb, ⟨-, h⟩ | ⟨-, e, hext, h⟩ | ⟨-, hd, pl, -, h⟩⟩ <;> rw [h]
  · rintro _ ⟨⟩
    exact ⟨by decide, fun _ => ⟨pkt.block, hlen, hb⟩⟩
  · exact .error (by decide) (by decide)
  · have hextract := extractPayload_raisesOnly ((selfCorrectFn_ok hb).1.trans hlen)
    rw [hext] at hextract
    rintro _ ⟨⟩
    exact hextract.mono (by decide) e rfl
  · exact .ok _

theorem joinLoop_raisesOnly (blocks : List Bytes) (expected : Nat) (out : Bytes) (s : State) :
    RaisesOnly s.cfg (errorsOf .join) (joinLoop expected out blocks s).2 := by
  induction blocks generalizing expected out s with
  | nil => exact .error (by decide) (by decide)
  | cons blk rest ih =>
    rcases joinLoop_cons_cases expected out blk rest s with ⟨e, hparse, h⟩ | ⟨pkt, hparse, hround⟩
    · rw [h]
      rcases parseFn_cases s.cfg blk with ⟨-, h'⟩ | ⟨-, hd, -, h'⟩ <;> rw [hparse] at h' <;> cases h'
      exact .error (by decide) (by decide)
    · have hstep := toPayloadStep_raisesOnly (s := s.load pkt) (parseFn_fresh hparse).length
      obtain ⟨hcfg, -⟩ := toPayloadStep_frame (s.load pkt) pkt
      rcases hround with ⟨s1, e, hs1, h⟩ | ⟨s1, pkt', bytes, hs1, ⟨-, h⟩ | ⟨-, -, h⟩ | ⟨-, -, h⟩⟩ <;>
        rw [hs1] at hstep hcfg <;> rw [h]
      · exact fun e' he' => hstep.mono (by decide) e' (by cases he'; rfl)
      · exact .error (by decide) (by decide)
      · exact .ok _
      · have hrest := ih (expected + 1) (out ++ bytes) s1
        rwa [show s1.cfg = s.cfg from hcfg] at hrest

/-! #### The commands -/

/-- JOIN answers what its loop leaves (44 R159). -/
theorem exec_join_eq (s : State) : exec .join s = .next ((joinLoop 0 [] s.cmd.blocks s).1.finish
    ((joinLoop 0 [] s.cmd.blocks s).2.map fun payload => { bytes := some payload })) := by
  simp only [exec, execJoin]
  rcases joinLoop 0 [] s.cmd.blocks s with ⟨s1, e | payload⟩ <;> rfl

/-- Every command answers a success or one of the errors of its row (60 R170). -/
theorem exec_raisesOnly (i : Instr) {s : State} (hwf : s.BlockWf) :
    ∃ s1 r, exec i s = .next (State.finish s1 r) ∧ RaisesOnly s.cfg (errorsOf i) r := by
  cases i with
  | byte2bits => exact ⟨s, _, rfl, (Operand.oneByte_raisesOnly _ _).map _⟩
  | bits2byte => exact ⟨s, _, rfl, (bitsToByte_raisesOnly _ _).map _⟩
  | int16tobytes => exact ⟨s, .ok _, rfl, .ok _⟩
  | bytestoint16 => exact ⟨s, _, rfl, (bytesToInt16_raisesOnly _ _).map _⟩
  | int32tobytes => exact ⟨s, .ok _, rfl, .ok _⟩
  | bytestoint32 => exact ⟨s, _, rfl, (bytesToInt32_raisesOnly _ _).map _⟩
  | encode =>
    rcases encodeFn_cases s.cfg s.cmd.index s.cmd.flag s.cmd.bytes with ⟨-, h⟩ | ⟨-, -, -, h⟩ | ⟨-, -, h⟩
    · exact ⟨s, .error _, exec_encode_of_error h, .error (by decide) (by decide)⟩
    · exact ⟨s, .error _, exec_encode_of_error h, .error (by decide) (by decide)⟩
    · exact ⟨s.load _, .ok _, exec_encode_of_ok h, .ok _⟩
  | parse =>
    rcases parseFn_cases s.cfg s.cmd.bytes with ⟨-, h⟩ | ⟨-, hd, -, h⟩
    · exact ⟨s, .error .invalidBlockSize, by simp only [exec, execParse, h]; rfl, .error (by decide) (by decide)⟩
    · exact ⟨s.load _, .ok _, exec_parse_of_ok h, .ok _⟩
  | syndrome =>
    cases hp : s.p with
    | none => exact ⟨s, .error _, exec_noPacket hp (by decide), .error (by decide) (by decide)⟩
    | some pkt => exact ⟨s, .ok _, exec_syndrome hp, .ok _⟩
  | parity =>
    cases hp : s.p with
    | none => exact ⟨s, .error _, exec_noPacket hp (by decide), .error (by decide) (by decide)⟩
    | some pkt => exact ⟨s, .ok _, exec_parity hp, .ok _⟩
  | selfcorrect =>
    cases hp : s.p with
    | none => exact ⟨s, .error _, exec_noPacket hp (by decide), .error (by decide) (by decide)⟩
    | some pkt =>
      cases hb : selfCorrectFn pkt.block with
      | error e =>
        obtain rfl := selfCorrectFn_error hb
        refine ⟨s, .error _, exec_selfcorrect_of_error hp hb, ?_⟩
        rintro _ ⟨⟩
        exact ⟨by decide, fun _ => ⟨pkt.block, (Memory.wf_iff _ _).mp (hwf pkt hp), hb⟩⟩
      | ok bo => exact ⟨_, .ok _, exec_selfcorrect_eq hp hb, .ok _⟩
  | topayload =>
    cases hp : s.p with
    | none => exact ⟨s, .error _, exec_noPacket hp (by decide), .error (by decide) (by decide)⟩
    | some pkt =>
      have hstep := toPayloadStep_raisesOnly ((Memory.wf_iff _ _).mp (hwf pkt hp))
      exact ⟨_, _, exec_topayload_eq hp, (hstep.mono (by decide)).map _⟩
  | split =>
    rcases splitFn_cases s.cfg s.cmd.bytes with ⟨-, h⟩ | ⟨-, pkts, h, -⟩
    · exact ⟨s, .error .indexOverflow, by simp only [exec, execSplit, h]; rfl, .error (by decide) (by decide)⟩
    · exact ⟨s.loadLast pkts, .ok _, by simp only [exec, execSplit, h]; rfl, .ok _⟩
  | join => exact ⟨_, _, exec_join_eq s, (joinLoop_raisesOnly s.cmd.blocks 0 [] s).map _⟩

/-- Settles O36: `BoundsError` arises only from a correction that leaves the block, which no block of this size has. -/
theorem noBoundsErrorAtPowerOfTwoSizes : Obligations.NoBoundsErrorAtPowerOfTwoSizes := by
  intro i s t k hwf hsize hexec h8
  obtain ⟨s1, r, hexec', hraises⟩ := exec_raisesOnly i hwf
  rw [hexec] at hexec'
  injection hexec' with ht
  subst ht
  cases r with
  | ok rsp => cases h8
  | error e =>
    have hbounds : e = .boundsError := Err.code_injective h8
    exact not_correctionCanLeave_of_two_pow hsize ((hraises e rfl).2 hbounds)

end Sys2Proof.Machine

/-! ### PARSE (43_parse.md) -/

namespace Sys2Proof.Machine

/-! #### What the header of a content is -/

/-- The first 40 bits of a content are those of step 1 of the encoder for the header read from it (R101, R122). -/
theorem take_eq_buildContent_of_readHeader (cfg : Config) {content : Bits} {hd : Header} (hlen : 40 ≤ content.length)
    (hread : readHeader content = .ok hd) :
    content.take 40 = (buildContent cfg hd.index hd.size hd.fragFlag []).take 40 := by
  obtain ⟨-, -, -, toBytes_surjective, -⟩ := conversionsAreInverse
  have htake : (content.take 40).length = 8 * 5 := List.length_take_of_le hlen
  obtain ⟨bytes, hfive, hbytes⟩ : ∃ bytes : Bytes, bytes.length = 5 ∧ unpack bytes = content.take 40 :=
    ⟨_, pack_length 5 _ htake, unpack_pack 5 _ htake⟩
  match bytes, hfive with
  | [b0, b1, b2, b3, b4], _ =>
    obtain ⟨index, -, hindex⟩ := toBytes_surjective [b0, b1] rfl
    obtain ⟨size, -, hsize⟩ := toBytes_surjective [b2, b3] rfl
    have hcontent : content.take 40 = (buildContent cfg index size b4 []).take 40 := by
      rw [buildContent, hindex, hsize]
      exact hbytes.symm
    have hsame : readHeader content = .ok { index := index, size := size, fragFlag := b4 } := by
      rw [← readHeader_take content le_rfl, hcontent, readHeader_take _ le_rfl, readHeader_buildContent]
    cases hread.symm.trans hsame
    exact hcontent

/-- The bits of a header stand in its block as 30 R64 to R66 lay them out, whether or not the block is a codeword. -/
theorem getBit_header {cfg : Config} {blk : Memory} {hd : Header} (hlen : blk.length = cfg.dataBytes)
    (hread : readHeader (stripParity blk) = .ok hd) {j q : Nat} (hj : j < 40) (hq : cpos cfg j = some q) :
    getBit blk q = .ok (layoutBit hd.index hd.size hd.fragFlag [] j) := by
  have hhdr : headerBytes = 5 := rfl
  have hfit := Config.content_fits cfg
  have hcontent := take_eq_buildContent_of_readHeader cfg (by rw [stripParity_length cfg blk hlen]; omega) hread
  rw [getBit_eq, ← stripParity_getElem? hlen hq, ← List.getElem?_take_of_lt hj, hcontent, List.getElem?_take_of_lt hj,
    buildContent_getElem? _ _ _ (Nat.zero_le _) (by omega)]

/-! #### The command PARSE -/

/-- An error of the parser is raised, and P is not loaded (R141). -/
theorem exec_parse_of_error {s : State} {e : Err} (h : parseFn s.cfg s.cmd.bytes = .error e) :
    exec .parse s = .next (s.raise e) := by
  simp only [exec, execParse, h]

/-- A whole block whose header is cached parses to its packet; the converse of `parseFn_fresh` (R143). -/
theorem Packet.Fresh.parseFn_block {cfg : Config} {pkt : Packet} (h : pkt.Fresh cfg) :
    parseFn cfg pkt.block = .ok pkt := by
  obtain ⟨hne, -⟩ | ⟨-, hd, hread, hparse⟩ := parseFn_cases cfg pkt.block
  · exact absurd h.length hne
  · cases h.cache.symm.trans hread
    exact hparse

/-- Settles O26: the parser fails on a wrong length only, and caches the header whose bits the block holds. -/
theorem parseLoadsTheUncorrectedBlock : Obligations.ParseLoadsTheUncorrectedBlock := by
  intro s
  obtain ⟨hne, hparse⟩ | ⟨heq, hd, hread, hparse⟩ := parseFn_cases s.cfg s.cmd.bytes
  · exact ⟨fun h => absurd h hne, fun _ => ⟨_, exec_parse_of_error hparse, s.raisedCode_raise .invalidBlockSize⟩⟩
  · refine ⟨fun _ => ?_, fun h => absurd heq h⟩
    exact ⟨_, _, exec_parse_of_ok hparse, rfl, rfl, fun j q => getBit_header heq hread, rfl, ⟨rfl, rfl, rfl⟩, rfl⟩

/-- Settles O27: ENCODE leaves a fresh packet in P. -/
theorem parseOfAnEncodedBlockGivesItsPacket : Obligations.ParseOfAnEncodedBlockGivesItsPacket := by
  intro s pkt payload henc hbytes
  have hparse : parseFn s.cfg s.cmd.bytes = .ok pkt := hbytes ▸ (encodeFn_fresh henc).parseFn_block
  exact ⟨_, exec_parse_of_ok hparse, rfl, rfl⟩

end Sys2Proof.Machine

/-! ### SPLIT (44_fragmentation.md) -/

namespace Sys2Proof.Machine

/-! #### The number of chunks and their lengths -/

section

variable (cfg : Config)

theorem one_le_chunkCount (len : Nat) : 1 ≤ chunkCount cfg len := Nat.le_max_left 1 _

/-- The chunk count is the least positive number of chunks that hold the payload (R151). -/
theorem chunkCount_le_iff (len : Nat) {k : Nat} (hk : 1 ≤ k) :
    chunkCount cfg len ≤ k ↔ len ≤ k * cfg.dataBytesValid := by
  rw [chunkCount, ← Nat.ceilDiv_eq_add_pred_div, max_le_iff, ceilDiv_le_iff_le_mul cfg.admitted.1, Nat.mul_comm]
  exact and_iff_right hk

theorem lt_chunkCount_iff (len : Nat) {k : Nat} (hk : 1 ≤ k) :
    k < chunkCount cfg len ↔ k * cfg.dataBytesValid < len := by
  rw [← not_le, chunkCount_le_iff cfg len hk, not_le]

theorem chunk_length (payload : Bytes) (i : Nat) :
    (chunk cfg payload i).length = min cfg.dataBytesValid (payload.length - i * cfg.dataBytesValid) := by
  rw [chunk, List.length_take, List.length_drop]

/-- The first `n` chunks are the payload up to its byte `n * V` (R151). -/
theorem flatMap_chunk_range (payload : Bytes) (n : Nat) :
    (List.range n).flatMap (chunk cfg payload) = payload.take (n * cfg.dataBytesValid) := by
  induction n with
  | zero => simp
  | succ n ih => rw [List.range_succ, List.flatMap_append, ih, Nat.succ_mul, List.take_add]; simp [chunk]

end

/-- Settles O44: the first `n` chunks hold the payload, and fewer do not. -/
theorem chunksConcatenateToThePayload : Obligations.ChunksConcatenateToThePayload := by
  intro cfg payload V n
  obtain ⟨m, hm⟩ : ∃ m, n = m + 1 := ⟨n - 1, (Nat.sub_add_cancel (one_le_chunkCount cfg _)).symm⟩
  have hhold : payload.length ≤ (m + 1) * V := (chunkCount_le_iff cfg _ (Nat.le_add_left 1 m)).mp hm.le
  have hfewer : ∀ k, 1 ≤ k → k < n → k * V < payload.length := fun k hk => (lt_chunkCount_iff cfg _ hk).mp
  have hlast : (m + 1) * V = m * V + V := Nat.succ_mul m V
  have hlength : ∀ i, (chunk cfg payload i).length = min V (payload.length - i * V) := chunk_length cfg payload
  rw [hm, Nat.add_sub_cancel]
  refine ⟨Nat.le_add_left 1 m, ?_, fun i hi => ?_, ?_, fun hlen => ⟨?_, hhold⟩, fun hempty => ?_⟩
  · rw [flatMap_chunk_range, List.take_of_length_le hhold]
  · have hfull := hfewer (i + 1) (Nat.le_add_left 1 i) (by omega)
    rw [Nat.succ_mul] at hfull
    rw [hlength, Nat.min_eq_left (by omega)]
  · rw [hlength, Nat.min_eq_right (by omega)]
  · rcases Nat.eq_zero_or_pos m with rfl | hpos
    · omega
    · exact hfewer m hpos (by omega)
  · have hone := (chunkCount_le_iff cfg payload.length le_rfl).mpr (by omega)
    omega

/-! #### The packets -/

/-- What a successful SPLIT computes (R152, R153). -/
theorem splitFn_inv {cfg : Config} {payload : Bytes} {pkts : List Packet} (h : splitFn cfg payload = .ok pkts) :
    chunkCount cfg payload.length ≤ maxFragments ∧ pkts.length = chunkCount cfg payload.length ∧
      ∀ (i : Nat) (pkt : Packet), pkts[i]? = some pkt → i < pkts.length ∧
        encodeFn cfg (BitVec.ofNat 16 i) (chunkFlag pkts.length i) (chunk cfg payload i) = .ok pkt := by
  rcases splitFn_cases cfg payload with ⟨-, h'⟩ | ⟨hn, pkts', h', hlen, hget⟩ <;> rw [h] at h' <;> cases h'
  refine ⟨hn, hlen, fun i pkt hpkt => ?_⟩
  obtain ⟨hi, -⟩ := List.getElem?_eq_some_iff.mp hpkt
  obtain ⟨pkt', henc, hpkt'⟩ := hget i (hlen ▸ hi)
  cases hpkt.symm.trans hpkt'
  exact ⟨hi, hlen ▸ henc⟩

/-- A packet of SPLIT is a function of its index, the number of chunks and its chunk (R155). -/
theorem splitFn_getElem? {cfg : Config} {payload : Bytes} {pkts : List Packet} (h : splitFn cfg payload = .ok pkts)
    (i : Nat) : pkts[i]? =
      if i < pkts.length then
        (encodeFn cfg (BitVec.ofNat 16 i) (chunkFlag pkts.length i) (chunk cfg payload i)).toOption
      else none := by
  obtain ⟨-, -, hget⟩ := splitFn_inv h
  split_ifs with hi
  · obtain ⟨-, henc⟩ := hget i _ (List.getElem?_eq_getElem hi)
    rw [henc, List.getElem?_eq_getElem hi]
    rfl
  · exact List.getElem?_eq_none (Nat.le_of_not_lt hi)

/-- An index that SPLIT gives is the chunk's number, without truncation (R153). -/
theorem toInt_ofNat_of_lt_maxFragments {i : Nat} (hi : i < maxFragments) : (BitVec.ofNat 16 i : Half).toInt = i := by
  have hmax : maxFragments = 32768 := rfl
  have hnat : (BitVec.ofNat 16 i : Half).toNat = i := by rw [BitVec.toNat_ofNat]; omega
  rw [BitVec.toInt_eq_toNat_of_lt (by omega), hnat]

theorem chunkFlag_eq_one_iff (n i : Nat) : chunkFlag n i = 1 ↔ i + 1 = n := by
  unfold chunkFlag
  split_ifs with h <;> simp [h]

theorem chunkFlag_eq_zero_iff (n i : Nat) : chunkFlag n i = 0 ↔ i + 1 ≠ n := by
  unfold chunkFlag
  split_ifs with h <;> simp [h]

/-- The packets of SPLIT: index, flag and size (R152, R155), each encoded from its chunk. -/
theorem splitFn_packet {cfg : Config} {payload : Bytes} {pkts : List Packet} (h : splitFn cfg payload = .ok pkts)
    {i : Nat} {pkt : Packet} (hpkt : pkts[i]? = some pkt) :
    Encoded cfg pkt (chunk cfg payload i) ∧ pkt.index.toInt = i ∧ pkt.fragFlag = chunkFlag pkts.length i ∧
      pkt.size.toInt = (chunk cfg payload i).length := by
  obtain ⟨hn, hlen, hget⟩ := splitFn_inv h
  obtain ⟨hi, henc⟩ := hget i pkt hpkt
  obtain ⟨hfits, -, hindex, hsize, hflag, -⟩ := encodeFn_inv henc
  refine ⟨by rwa [Encoded, hindex, hflag], ?_, hflag, by rw [hsize, (size_toInt hfits).1]⟩
  rw [hindex, toInt_ofNat_of_lt_maxFragments (by omega)]

/-- Settles O45: header by header; the count by what the chunks hold. -/
theorem splitMakesAFragmentSequence : Obligations.SplitMakesAFragmentSequence := by
  intro cfg payload pkts h
  obtain ⟨-, hlen, hget⟩ := splitFn_inv h
  have hone := one_le_chunkCount cfg payload.length
  have hV : 1 ≤ cfg.dataBytesValid := cfg.admitted.1
  have hle_one := chunkCount_le_iff cfg payload.length (k := 1) le_rfl
  have hle_two := chunkCount_le_iff cfg payload.length (k := 2) (by decide)
  refine ⟨fun i pkt hpkt => ?_, fun hempty => ?_, fun hfull => ?_, fun hover => ?_,
    fun payload' pkts' i h' hlen' hchunk => ?_⟩
  · obtain ⟨-, hindex, hflag, hsize⟩ := splitFn_packet h hpkt
    obtain ⟨hi, -⟩ := hget i pkt hpkt
    rw [hflag, chunkFlag_eq_one_iff, chunkFlag_eq_zero_iff]
    exact ⟨hindex, Iff.rfl, by omega, hsize⟩
  · omega
  · omega
  · omega
  · rw [splitFn_getElem? h', splitFn_getElem? h, hlen', hchunk]

/-! #### The command SPLIT -/

theorem exec_split_of_ok {s : State} {pkts : List Packet} {pkt : Packet} (h : splitFn s.cfg s.cmd.bytes = .ok pkts)
    (hlast : pkts.getLast? = some pkt) :
    exec .split s = .next ((s.load pkt).respond { blocks := some (pkts.map (·.block)) }) := by
  simp only [exec, execSplit, h, State.loadLast_of_getLast? hlast]

theorem exec_split_of_error {s : State} {e : Err} (h : splitFn s.cfg s.cmd.bytes = .error e) :
    exec .split s = .next (s.raise e) := by
  simp only [exec, execSplit, h]

/-- Settles O43: SPLIT's list is `splitFn`'s, and P gets its last packet. -/
theorem splitEncodesEachChunk : Obligations.SplitEncodesEachChunk := by
  intro s V n
  obtain ⟨hmany, h⟩ | ⟨hfew, pkts, h, hlen, hget⟩ := splitFn_cases s.cfg s.cmd.bytes
  · exact ⟨fun hfew => absurd hfew (Nat.not_le.mpr hmany),
      fun _ => ⟨_, exec_split_of_error h, s.raisedCode_raise .indexOverflow⟩⟩
  refine ⟨fun _ => ?_, fun hmany => absurd hfew (Nat.not_le.mpr hmany)⟩
  obtain ⟨last, hlast, -⟩ := splitFn_getLast? h
  refine ⟨_, _, exec_split_of_ok h hlast, rfl, (List.length_map (·.block)).trans hlen, fun i hi => ?_,
    rfl, rfl, rfl, rfl⟩
  obtain ⟨pkt, henc, hpkt⟩ := hget i hi
  refine ⟨pkt, henc, by rw [List.getElem?_map, hpkt]; rfl, fun hi' => ?_⟩
  have hfinal : pkts.length - 1 = i := by rw [hlen]; exact Nat.sub_eq_of_eq_add hi'.symm
  rw [List.getLast?_eq_getElem?, hfinal, hpkt] at hlast
  exact hlast.symm

end Sys2Proof.Machine

/-! ### JOIN (44_fragmentation.md) -/

namespace Sys2Proof.Machine

/-! #### One round of the loop -/

/-- A round of JOIN's loop either ends it or goes on to the next block; which of the two, and with what, does not
depend on the blocks that follow (R156, R162). -/
theorem joinLoop_cons_ends_or_continues (expected : Nat) (out blk : Bytes) (s : State) :
    (∃ s1 r, ∀ rest, joinLoop expected out (blk :: rest) s = (s1, r)) ∨
    ∃ s1 out', ∀ rest, joinLoop expected out (blk :: rest) s = joinLoop (expected + 1) out' rest s1 := by
  simp only [joinLoop]
  rcases parseFn s.cfg blk with e | pkt
  · exact .inl ⟨_, _, fun _ => rfl⟩
  dsimp only
  rcases toPayloadStep (s.load pkt) pkt with ⟨s1, e | ⟨pkt', bytes⟩⟩
  · exact .inl ⟨_, _, fun _ => rfl⟩
  dsimp only
  split_ifs
  · exact .inl ⟨_, _, fun _ => rfl⟩
  · exact .inl ⟨_, _, fun _ => rfl⟩
  · exact .inr ⟨_, _, fun _ => rfl⟩

/-- A block of an encoded packet, with at most one flipped bit, self-corrects to one with the packet's content; without
a flip it stays (R161, 42 R127). -/
theorem selfCorrectFn_of_atMostOneFlip {cfg : Config} {orig : Packet} {payload : Bytes} {blk : Memory}
    (henc : Encoded cfg orig payload) (h : AtMostOneFlip orig.block blk) :
    blk.length = cfg.dataBytes ∧ ∃ b o, selfCorrectFn blk = .ok (b, o) ∧ o ≠ .uncorrectableDoubleError ∧
      stripParity b = stripParity orig.block ∧ (blk = orig.block → b = orig.block) := by
  obtain ⟨-, -, hsyn, -⟩ := encodedBlocksAreValidCodewords _ _ _ _ _ henc
  have hclean := selfCorrectFn_of_syndrome_eq_zero hsyn
  rcases h with rfl | ⟨q, hflip⟩
  · exact ⟨(encodeFn_fresh henc).length, _, _, hclean, by decide, rfl, fun _ => rfl⟩
  · obtain ⟨b, hb, hstrip⟩ := selfCorrectFn_of_one_flip henc hflip
    refine ⟨(corrupt_encoded henc hflip).1, b, _, hb, by split_ifs <;> simp, hstrip, ?_⟩
    rintro rfl
    exact congrArg Prod.fst (Except.ok.inj (hb.symm.trans hclean))

/-- The round of JOIN's loop on a block of an encoded packet with at most one flipped bit: the header and payload that
were encoded come back, and the header is tested (R156, R157). -/
theorem joinLoop_cons_of_encoded {s : State} {orig : Packet} {payload blk : Bytes}
    (henc : Encoded s.cfg orig payload) (h : AtMostOneFlip orig.block blk) :
    ∃ s1, s1.cfg = s.cfg ∧ s1.cache = some (orig.index, orig.size, orig.fragFlag) ∧
      (blk = orig.block → s1.p = some orig) ∧ ∀ expected out rest,
        joinLoop expected out (blk :: rest) s =
          if orig.index.toInt ≠ expected then (s1, .error .missingFragment)
          else if orig.fragFlag = 1 then (s1, .ok (out ++ payload))
          else joinLoop (expected + 1) (out ++ payload) rest s1 := by
  obtain ⟨hlen, b, o, hb, ho, hstrip, hsame⟩ := selfCorrectFn_of_atMostOneFlip henc h
  obtain ⟨hne, -⟩ | ⟨-, hd, -, hparse⟩ := parseFn_cases s.cfg blk
  · exact absurd hlen hne
  refine ⟨(s.load { orig with block := b }).recordOutcome o, rfl, rfl, fun heq => ?_, fun expected out rest => ?_⟩
  · rw [hsame heq]
    rfl
  · simp only [joinLoop, hparse, toPayloadStep, hb, if_neg ho, State.load_cfg, extractPayload_encoded henc hstrip]
    rfl

/-! #### A run of fragments -/

/-- Encoded packets without the final flag, their indices counting up from `first`, each beside its payload. -/
def UnflaggedRun (cfg : Config) (first : Nat) (frags : List (Packet × Bytes)) : Prop :=
  ∀ (k : Nat) (f : Packet × Bytes), frags[k]? = some f →
    Encoded cfg f.1 f.2 ∧ f.1.index.toInt = (first + k : Nat) ∧ f.1.fragFlag = 0

theorem UnflaggedRun.tail {cfg : Config} {first : Nat} {f : Packet × Bytes} {frags : List (Packet × Bytes)}
    (h : UnflaggedRun cfg first (f :: frags)) : UnflaggedRun cfg (first + 1) frags := by
  intro k g hg
  obtain ⟨henc, hindex, hflag⟩ := h (k + 1) g hg
  exact ⟨henc, by rw [hindex]; congr 1; omega, hflag⟩

/-- JOIN's loop passes an unflagged run and collects its payloads (R156). -/
theorem joinLoop_append_of_unflaggedRun {frags : List (Packet × Bytes)} {blocks : List Bytes}
    (hflips : List.Forall₂ (fun f blk => AtMostOneFlip f.1.block blk) frags blocks) {expected : Nat} {s : State}
    (hrun : UnflaggedRun s.cfg expected frags) (out : Bytes) (rest : List Bytes) :
    ∃ s1, s1.cfg = s.cfg ∧ (frags = [] → s1 = s) ∧ joinLoop expected out (blocks ++ rest) s =
      joinLoop (expected + frags.length) (out ++ frags.flatMap (·.2)) rest s1 := by
  induction hflips generalizing expected out s with
  | nil => exact ⟨s, rfl, fun _ => rfl, by simp⟩
  | @cons f blk frags blocks hflip _ ih =>
    obtain ⟨henc, hindex, hflag⟩ := hrun 0 f rfl
    obtain ⟨s1, hcfg, -, -, hround⟩ := joinLoop_cons_of_encoded henc hflip
    obtain ⟨s2, hcfg2, -, hrest⟩ := ih (hcfg ▸ hrun.tail) (out ++ f.2)
    refine ⟨s2, hcfg2.trans hcfg, fun h => (nomatch h), ?_⟩
    rw [List.cons_append, hround, if_neg (by simp [hindex]), if_neg (by simp [hflag]), hrest, List.length_cons,
      List.flatMap_cons, List.append_assoc, show expected + 1 + frags.length = expected + (frags.length + 1) by omega]

/-- A fragment that ends the sequence, after an unflagged run: JOIN's loop answers all payloads and leaves the header in
P, and does not look further (R156, R162, R163). -/
theorem joinLoop_of_sequence {s : State} {frags : List (Packet × Bytes)} {last : Packet × Bytes} {blocks : List Bytes}
    {blk : Bytes} (hrun : UnflaggedRun s.cfg 0 frags) (henc : Encoded s.cfg last.1 last.2)
    (hindex : last.1.index.toInt = frags.length) (hflag : last.1.fragFlag = 1)
    (hflips : List.Forall₂ (fun f blk => AtMostOneFlip f.1.block blk) frags blocks)
    (hflip : AtMostOneFlip last.1.block blk) (extra : List Bytes) :
    ∃ s1, joinLoop 0 [] (blocks ++ blk :: extra) s = (s1, .ok ((frags ++ [last]).flatMap (·.2))) ∧
      s1.cache = some (last.1.index, last.1.size, last.1.fragFlag) := by
  obtain ⟨s1, hcfg, -, hpassed⟩ := joinLoop_append_of_unflaggedRun hflips hrun [] (blk :: extra)
  obtain ⟨s2, -, hcache, -, hround⟩ := joinLoop_cons_of_encoded (hcfg ▸ henc) hflip
  refine ⟨s2, ?_, hcache⟩
  rw [hpassed, hround, if_neg (by simp [hindex]), if_pos hflag]
  simp

/-- What matches a list with a last element has a last element, and the two match. -/
theorem exists_concat_of_forall₂_concat {α β : Type} {R : α → β → Prop} {l : List α} {a : α} {bs : List β}
    (h : List.Forall₂ R (l ++ [a]) bs) : ∃ pre b, bs = pre ++ [b] ∧ List.Forall₂ R l pre ∧ R a b := by
  induction l generalizing bs with
  | nil =>
    obtain ⟨b, rest, hab, hnil, rfl⟩ := List.forall₂_cons_left_iff.mp h
    exact ⟨[], b, by rw [List.forall₂_nil_left_iff.mp hnil, List.nil_append], .nil, hab⟩
  | cons x l ih =>
    obtain ⟨y, rest, hxy, hrest, rfl⟩ := List.forall₂_cons_left_iff.mp h
    obtain ⟨pre, b, rfl, hpre, hab⟩ := ih hrest
    exact ⟨y :: pre, b, rfl, .cons hxy hpre, hab⟩

/-! #### The command JOIN -/

theorem exec_join_of_ok {s s1 : State} {payload : Bytes} (h : joinLoop 0 [] s.cmd.blocks s = (s1, .ok payload)) :
    exec .join s = .next (s1.respond { bytes := some payload }) := by
  rw [exec_join_eq, h]
  rfl

theorem exec_join_of_error {s s1 : State} {e : Err} (h : joinLoop 0 [] s.cmd.blocks s = (s1, .error e)) :
    exec .join s = .next (s1.raise e) := by
  rw [exec_join_eq, h]
  rfl

/-- Settles O47: the sequence is an unflagged run and its flagged last fragment. -/
theorem joinReassemblesAFragmentSequence : Obligations.JoinReassemblesAFragmentSequence := by
  intro s frags blocks extra last hlast hfrags hflips hblocks
  obtain ⟨init, rfl⟩ := List.getLast?_eq_some_iff.mp hlast
  have hrun : UnflaggedRun s.cfg 0 init := by
    intro k f hf
    obtain ⟨hk, -⟩ := List.getElem?_eq_some_iff.mp hf
    obtain ⟨henc, hindex, hflag⟩ := hfrags k f (by rw [List.getElem?_append_left hk, hf])
    exact ⟨henc, by rw [hindex, Nat.zero_add], by rw [hflag, if_neg (by simp; omega)]⟩
  obtain ⟨henc, hindex, hflag⟩ := hfrags init.length last (by simp)
  obtain ⟨pre, blk, rfl, hpre, hflip⟩ := exists_concat_of_forall₂_concat hflips
  obtain ⟨s1, hloop, hcache⟩ := joinLoop_of_sequence hrun henc hindex (by simpa using hflag) hpre hflip extra
  rw [List.append_assoc, List.singleton_append] at hblocks
  rw [← hblocks] at hloop
  have hexec := exec_join_of_ok hloop
  exact ⟨_, hexec, rfl, rfl, hcache, commandsKeepConfigurationAndOperands _ _ _ hexec⟩

/-- Settles O50: after the unflagged run the list ends, or the next round finds the wrong index. -/
theorem joinRaisesMissingFragment : Obligations.JoinRaisesMissingFragment := by
  intro s frags hfrags
  have hrun : UnflaggedRun s.cfg 0 frags := by
    intro k f hf
    obtain ⟨henc, hindex, hflag⟩ := hfrags k f hf
    exact ⟨henc, by rw [hindex, Nat.zero_add], hflag⟩
  have hflips : List.Forall₂ (fun f blk => AtMostOneFlip f.1.block blk) frags (frags.map (·.1.block)) :=
    List.forall₂_map_right_iff.mpr (List.forall₂_same.mpr fun _ _ => .inl rfl)
  constructor
  · intro hblocks
    obtain ⟨s1, -, hsame, hpassed⟩ := joinLoop_append_of_unflaggedRun hflips hrun [] []
    rw [List.append_nil, ← hblocks] at hpassed
    exact ⟨_, exec_join_of_error hpassed, rfl, rfl, fun h => by rw [hsame h, State.raise_p]⟩
  · intro bad payload rest henc hindex hblocks
    obtain ⟨s1, hcfg, -, hpassed⟩ := joinLoop_append_of_unflaggedRun hflips hrun [] (bad.block :: rest)
    obtain ⟨s2, -, -, hp, hround⟩ := joinLoop_cons_of_encoded (hcfg ▸ henc) (.inl rfl)
    rw [hround, Nat.zero_add, if_pos hindex, ← hblocks] at hpassed
    exact ⟨_, exec_join_of_error hpassed, rfl, rfl, hp rfl⟩

/-- A JOIN that succeeds ends in some round, so it answers the same with more blocks appended (R162). -/
theorem joinLoop_append_of_ok {blocks : List Bytes} {expected : Nat} {out payload : Bytes} {s t : State}
    (h : joinLoop expected out blocks s = (t, .ok payload)) (extra : List Bytes) :
    joinLoop expected out (blocks ++ extra) s = (t, .ok payload) := by
  induction blocks generalizing expected out s with
  | nil => cases h
  | cons blk rest ih =>
    rw [List.cons_append]
    rcases joinLoop_cons_ends_or_continues expected out blk s with ⟨s1, r, hround⟩ | ⟨s1, out', hround⟩ <;>
      rw [hround] at h ⊢
    · exact h
    · exact ih h

/-- Another list on the command port is another command port. -/
theorem State.withBlocks_eq_withPorts (s : State) (blocks blocks' : List Bytes) : s.withBlocks blocks' =
    (s.withBlocks blocks).withPorts { s.cmd with blocks := blocks' } s.status.err s.rsp := rfl

/-- Settles O49: the loop answers the same on the longer list, and does not read the command port. -/
theorem joinIgnoresBlocksAfterTheFinalOne : Obligations.JoinIgnoresBlocksAfterTheFinalOne := by
  intro s t blocks extra hexec herr
  rcases hloop : joinLoop 0 [] blocks (s.withBlocks blocks) with ⟨s1, e | payload⟩
  · rw [exec_join_of_error hloop] at hexec
    cases hexec
    exact absurd herr e.code_bounds.1
  · rw [exec_join_of_ok hloop] at hexec
    cases hexec
    have hlong := joinLoop_withPorts (blocks ++ extra) 0 [] (s.withBlocks blocks)
      { s.cmd with blocks := blocks ++ extra } s.status.err s.rsp
    rw [← State.withBlocks_eq_withPorts, joinLoop_append_of_ok hloop] at hlong
    exact ⟨_, exec_join_of_ok hlong, rfl, rfl, rfl⟩

/-! #### JOIN and a host that parses and decodes block by block -/

section

variable {s s1 : State} {blk : Bytes} {pkt : Packet}

/-- TOPAYLOAD of a packet just loaded, whatever the ports and STATUS.ERR hold, answers what its working step leaves
(42 R132). -/
theorem exec_topayload_of_step {x : Except Err (Packet × Bytes)} (hstep : toPayloadStep (s.load pkt) pkt = (s1, x))
    (c : Command) (e : BitVec 8) (r : Option Response) : exec .topayload ((s.load pkt).withPorts c e r) =
      .next ((s1.withPorts c e r).finish (x.map fun y => y.1.headerResponse (some y.2))) := by
  rw [exec_topayload_eq (pkt := pkt) rfl, toPayloadStep_withPorts, hstep]

variable (expected : Nat) (out : Bytes) (rest : List Bytes)

/-- The host stops where PARSE fails (R159). -/
theorem hostJoin_cons_of_parse_error {e : Err} (hparse : parseFn s.cfg blk = .error e) :
    hostJoin expected out (blk :: rest) s = ((s.withBytes blk).raise e, e.code, none) := by
  have hexec : exec .parse (s.withBytes blk) = .next ((s.withBytes blk).raise e) := exec_parse_of_error hparse
  simp only [hostJoin, hexec]
  exact if_pos e.code_bounds.1

/-- PARSE leaves the unit of the host as JOIN's round leaves its own, ports and STATUS.ERR aside (R159). -/
theorem exec_parse_withBytes (hparse : parseFn s.cfg blk = .ok pkt) : exec .parse (s.withBytes blk) =
    .next ((s.load pkt).withPorts { s.cmd with bytes := blk } 0 (some (pkt.headerResponse none))) :=
  exec_parse_of_ok hparse

/-- The host stops where TOPAYLOAD fails (R159). -/
theorem hostJoin_cons_of_step_error {e : Err} (hparse : parseFn s.cfg blk = .ok pkt)
    (hstep : toPayloadStep (s.load pkt) pkt = (s1, .error e)) :
    ∃ c r, hostJoin expected out (blk :: rest) s = (s1.withPorts c e.code r, e.code, none) := by
  refine ⟨{ s.cmd with bytes := blk }, some { err := e.code }, ?_⟩
  simp only [hostJoin, exec_parse_withBytes hparse, exec_topayload_of_step hstep]
  exact if_pos e.code_bounds.1

/-- The host tests the header that TOPAYLOAD answers as JOIN's loop tests it (R156, R159). -/
theorem hostJoin_cons_of_step_ok {pkt' : Packet} {bytes : Bytes} (hparse : parseFn s.cfg blk = .ok pkt)
    (hstep : toPayloadStep (s.load pkt) pkt = (s1, .ok (pkt', bytes))) :
    ∃ c r, hostJoin expected out (blk :: rest) s =
      if pkt'.index.toInt ≠ expected then (s1.withPorts c 0 r, Err.missingFragment.code, none)
      else if pkt'.fragFlag = 1 then (s1.withPorts c 0 r, 0, some (out ++ bytes))
      else hostJoin (expected + 1) (out ++ bytes) rest (s1.withPorts c 0 r) := by
  refine ⟨{ s.cmd with bytes := blk }, some (pkt'.headerResponse (some bytes)), ?_⟩
  simp only [hostJoin, exec_parse_withBytes hparse, exec_topayload_of_step hstep]
  rfl

end

/-- What the host has in hand when JOIN's loop has ended with this result: an error code and, without error, the
payload (R159). -/
def joinAnswer : Except Err Bytes → BitVec 8 × Option Bytes
  | .ok payload => (0, some payload)
  | .error e => (e.code, none)

/-- The host ends with the answer of JOIN's loop and, ports and STATUS.ERR aside, with its state (R159). -/
theorem hostJoin_eq_joinLoop (blocks : List Bytes) (expected : Nat) (out : Bytes) (s : State) :
    ∃ c e r, hostJoin expected out blocks s =
      ((joinLoop expected out blocks s).1.withPorts c e r, joinAnswer (joinLoop expected out blocks s).2) := by
  induction blocks generalizing expected out s with
  | nil => exact ⟨s.cmd, s.status.err, s.rsp, rfl⟩
  | cons blk rest ih =>
    obtain ⟨e, hparse, hloop⟩ | ⟨pkt, hparse, ⟨s1, e, hstep, hloop⟩ | ⟨s1, pkt', bytes, hstep, hround⟩⟩ :=
      joinLoop_cons_cases expected out blk rest s
    · rw [hloop]
      exact ⟨_, _, _, hostJoin_cons_of_parse_error expected out rest hparse⟩
    · rw [hloop]
      obtain ⟨c, r, hhost⟩ := hostJoin_cons_of_step_error expected out rest hparse hstep
      exact ⟨c, e.code, r, hhost⟩
    · obtain ⟨c, r, hhost⟩ := hostJoin_cons_of_step_ok expected out rest hparse hstep
      obtain ⟨hindex, hloop⟩ | ⟨hindex, hflag, hloop⟩ | ⟨hindex, hflag, hloop⟩ := hround <;> rw [hloop, hhost]
      · exact ⟨c, 0, r, if_pos hindex⟩
      · rw [if_neg (not_not_intro hindex), if_pos hflag]
        exact ⟨c, 0, r, rfl⟩
      · rw [if_neg (not_not_intro hindex), if_neg hflag]
        obtain ⟨c', e', r', hrest⟩ := ih (expected + 1) (out ++ bytes) (s1.withPorts c 0 r)
        rw [joinLoop_withPorts] at hrest
        exact ⟨c', e', r', hrest⟩

/-- Settles O46: JOIN answers what its loop leaves, and the host is left with the same. -/
theorem joinEqualsIssuingParseAndToPayload : Obligations.JoinEqualsIssuingParseAndToPayload := by
  intro s
  obtain ⟨c, e, r, hhost⟩ := hostJoin_eq_joinLoop s.cmd.blocks 0 [] s
  have hkept := commandsKeepConfigurationAndOperands _ _ _ (exec_join_eq s)
  refine ⟨_, exec_join_eq s, ?_⟩
  rw [hhost]
  refine ⟨State.finish_p _ _, State.finish_outcome _ _, State.finish_pos _ _, ?_, ?_, hkept⟩ <;>
    rcases (joinLoop 0 [] s.cmd.blocks s).2 with e | payload <;> rfl

end Sys2Proof.Machine

/-! ### JOIN after SPLIT (44_fragmentation.md R161) -/

namespace Sys2Proof.Machine

/-- The packets of a SPLIT, each beside the chunk it encodes. -/
def fragmentsOf (cfg : Config) (payload : Bytes) (pkts : List Packet) : List (Packet × Bytes) :=
  pkts.zip ((List.range pkts.length).map (chunk cfg payload))

section

variable (cfg : Config) (payload : Bytes) (pkts : List Packet)

theorem fragmentsOf_map_fst : (fragmentsOf cfg payload pkts).map (·.1) = pkts := List.map_fst_zip (by simp)

theorem fragmentsOf_map_snd :
    (fragmentsOf cfg payload pkts).map (·.2) = (List.range pkts.length).map (chunk cfg payload) :=
  List.map_snd_zip (by simp)

theorem fragmentsOf_length : (fragmentsOf cfg payload pkts).length = pkts.length := by simp [fragmentsOf]

theorem fragmentsOf_getElem? {k : Nat} {f : Packet × Bytes} (h : (fragmentsOf cfg payload pkts)[k]? = some f) :
    pkts[k]? = some f.1 ∧ f.2 = chunk cfg payload k := by
  obtain ⟨hpkt, hchunk⟩ := List.getElem?_zip_eq_some.mp h
  obtain ⟨hk, -⟩ := List.getElem?_eq_some_iff.mp hpkt
  rw [List.getElem?_map, List.getElem?_range hk] at hchunk
  exact ⟨hpkt, (Option.some.inj hchunk).symm⟩

end

/-- Settles O48: the packets of SPLIT beside their chunks are a fragment sequence (O47), and the chunks are the payload
(O44). -/
theorem joinInvertsSplit : Obligations.JoinInvertsSplit := by
  intro s s' t blocks blocks' extra hcfg hexec hrsp hflips hblocks
  obtain ⟨-, h⟩ | ⟨-, pkts, h, hlen, -⟩ := splitFn_cases s.cfg s.cmd.bytes
  · rw [exec_split_of_error h] at hexec
    cases hexec
    cases hrsp
  obtain ⟨pkt, hpkt, -⟩ := splitFn_getLast? h
  rw [exec_split_of_ok h hpkt] at hexec
  cases hexec
  cases hrsp
  have hne : fragmentsOf s.cfg s.cmd.bytes pkts ≠ [] :=
    List.ne_nil_of_length_pos (by rw [fragmentsOf_length, hlen]; exact one_le_chunkCount _ _)
  have hsequence : ∀ (k : Nat) (f : Packet × Bytes), (fragmentsOf s.cfg s.cmd.bytes pkts)[k]? = some f →
      Encoded s'.cfg f.1 f.2 ∧ f.1.index.toInt = k ∧
        f.1.fragFlag = if k + 1 = (fragmentsOf s.cfg s.cmd.bytes pkts).length then 1 else 0 := by
    intro k f hf
    obtain ⟨hpkt, hchunk⟩ := fragmentsOf_getElem? _ _ _ hf
    obtain ⟨henc, hindex, hflag, -⟩ := splitFn_packet h hpkt
    rw [hcfg, hchunk, fragmentsOf_length]
    exact ⟨henc, hindex, hflag⟩
  rw [← fragmentsOf_map_fst s.cfg s.cmd.bytes pkts, List.map_map, List.forall₂_map_left_iff] at hflips
  obtain ⟨u, hjoin, herr, hrsp, -⟩ := joinReassemblesAFragmentSequence s' _ _ extra _
    (List.getLast?_eq_some_getLast hne) hsequence hflips hblocks
  refine ⟨u, hjoin, herr, ?_⟩
  obtain ⟨-, hconcat, -⟩ := chunksConcatenateToThePayload s.cfg s.cmd.bytes
  rw [hrsp, List.flatMap_def, fragmentsOf_map_snd, hlen, ← List.flatMap_def, hconcat]

end Sys2Proof.Machine

/-! ### Errors, and units side by side (60_exceptions.md) -/

namespace Sys2Proof.Machine

/-- Settles O9: each of the four commands asks for a packet before anything else. -/
theorem decodeSideCommandsNeedAPacket : Obligations.DecodeSideCommandsNeedAPacket :=
  fun s _ hp hi => ⟨s.raise .noPacket, exec_noPacket hp hi, s.raisedCode_raise .noPacket⟩

/-- Settles O56: a command answers a success or one of the errors of its row (`exec_raisesOnly`), and the answer writes
its code. -/
theorem commandsRaiseOnlyTheirErrors : Obligations.CommandsRaiseOnlyTheirErrors := by
  refine ⟨rfl, fun i s t hwf hexec => ?_⟩
  obtain ⟨s1, r, hexec', hraises⟩ := exec_raisesOnly i hwf
  obtain rfl : t = s1.finish r := by
    rw [hexec] at hexec'
    injection hexec'
  cases r with
  | ok rsp => exact .inl rfl
  | error e =>
    obtain ⟨hcode, -⟩ := hraises e rfl
    exact .inr hcode

/-- A unit of a system steps exactly when it stands in the system and steps alone, and it replaces its own state only. -/
theorem System.stepUnit_next_iff {sys sys' : System} {k : Nat} :
    System.stepUnit sys k = .next sys' ↔ ∃ s s', sys[k]? = some s ∧ step s = .next s' ∧ sys' = sys.set k s' := by
  unfold System.stepUnit
  constructor
  · intro h
    split at h
    · cases h
    · next s hs =>
      split at h
      · next s' hstep => cases h; exact ⟨s, s', hs, hstep, rfl⟩
      · cases h
      · cases h
  · rintro ⟨s, s', hs, hstep, rfl⟩
    simp only [hs, hstep]

/-- Settles O60: a step of a unit replaces one element of the list of units, and replacements at two places commute. -/
theorem unitsShareNothing : Obligations.UnitsShareNothing := by
  intro sys sys1 j k hjk hj
  obtain ⟨s, s', hs, hstep, rfl⟩ := System.stepUnit_next_iff.mp hj
  have hlt : j < sys.length := (List.getElem?_eq_some_iff.mp hs).1
  refine ⟨List.getElem?_set_ne hjk, List.length_set, ⟨s, s', hs, hstep, List.getElem?_set_self hlt⟩, ?_⟩
  intro sys2 hk
  obtain ⟨u, u', hu, hstep', rfl⟩ := System.stepUnit_next_iff.mp hk
  have huAfter : (sys.set j s')[k]? = some u := (List.getElem?_set_ne hjk).trans hu
  have hsAfter : (sys.set k u')[j]? = some s := (List.getElem?_set_ne hjk.symm).trans hs
  exact ⟨(sys.set j s').set k u', System.stepUnit_next_iff.mpr ⟨u, u', huAfter, hstep', rfl⟩,
    System.stepUnit_next_iff.mpr ⟨s, s', hsAfter, hstep, List.set_comm _ _ hjk⟩⟩

end Sys2Proof.Machine

/-! ### Reset, and runs of the host's actions (70_reset_and_hazards.md) -/

namespace Sys2Proof.Machine

/-- Settles O4: the step is `applyReset`, which keeps the configuration and the further actions only. -/
theorem resetActionRestoresResetValues : Obligations.ResetActionRestoresResetValues :=
  fun s rest hp => ⟨s.applyReset rest, step_reset hp, rfl, rfl, rfl, rfl, rfl, rfl⟩

/-- A unit with a pending action always steps, and consumes that action and no other (70 R215). -/
theorem step_consumes_pending {s : State} {a : HostAction} {rest : List HostAction} (hp : s.pending = a :: rest) :
    ∃ t, step s = .next t ∧ t.pending = rest := by
  cases a with
  | reset => exact ⟨_, step_reset hp, rfl⟩
  | command c =>
    cases hi : decodeOp c.op with
    | none => exact ⟨_, step_illegal hp hi, rfl⟩
    | some i =>
      obtain ⟨s1, r, hexec, hw⟩ := exec_works i (s.present c rest)
      obtain ⟨-, -, hkeep⟩ := hw.keeps
      exact ⟨s1.finish r, (step_command hp hi).trans hexec, (s1.finish_pending r).trans hkeep⟩

/-- A run whose first step succeeds goes on from the state that step makes. -/
theorem run_succ_of_step {M : Host.Core} {s t : M.State} (h : M.step s = .next t) (k : Nat) :
    M.run (k + 1) s = M.run k t := by
  rw [Host.Core.run, h]

/-- Settles O59, by induction on the pending list: each step consumes one action. -/
theorem everyFiniteRunFinishes : Obligations.EveryFiniteRunFinishes := by
  intro s
  induction hp : s.pending generalizing s with
  | nil => exact ⟨s, rfl, hp⟩
  | cons a rest ih =>
    obtain ⟨s', hstep, hp'⟩ := step_consumes_pending hp
    obtain ⟨t, hrun, hdone⟩ := ih s' hp'
    exact ⟨t, (run_succ_of_step hstep rest.length).trans hrun, hdone⟩

end Sys2Proof.Machine
